-- ==== Sys2Proof/Config.lean ====
section
/-!
DEFINITION. The implementation parameters of the block at their canonical values (00_scope.md R5, R6, R7).
No value is left open by a rule of the spec, so this file holds no free constant (INVENTORY.md,
"What the manual leaves open").
-/

namespace Sys2Proof.Config

/-- `ARCHITECTURE`, written `N` in every rule: the register width in bits (R5). -/
abbrev architecture : Nat := 16

/-- `NREGS`: the number of registers (R6). -/
abbrev numRegs : Nat := 16

/-- `CMD_WIDTH`: the width of a command word (R7, R60). -/
abbrev cmdWidth : Nat := 32

/-- `COUNT_WIDTH`: the width of the count field (R7, R64). -/
abbrev countWidth : Nat := 16

/-- `IMM_WIDTH`: the width of LDI's literal field (R7, R65). -/
abbrev immWidth : Nat := 16

/-- `FLAGS_RESET`: the flags after reset, packed as `FLAGS[3:0] = (OF, SF, ZF, CF)` (R7, R31, R32). -/
abbrev flagsReset : BitVec 4 := 0#4

end Sys2Proof.Config
end

