-- ==== Sys2Proof/Word.lean ====
section
/-!
DEFINITION. The machine's words: register contents, register indices and command words
(00_scope.md R5 to R9). `BitVec` numbers bits from the least significant, as R8 does; `BitVec.toNat` is
the unsigned reading `u`, `BitVec.toInt` the signed reading `s`, `BitVec.ofInt` the pattern `trunc_N` and
`BitVec.msb` the sign bit (R9, R125).
-/

namespace Sys2Proof

/-- The content of a register: `N = 16` bits (R5, R22). -/
abbrev Word := BitVec 16

/-- A register index `0..15`, naming `r0`..`r15` (R20, R34). -/
abbrev Reg := Fin 16

/-- A command word `cmd[31:0]` (R60). -/
abbrev CmdWord := BitVec 32

end Sys2Proof
end

