-- ==== Sys2Proof/Syntax.lean ====
section
/-!
DEFINITION. The abstract command (30_encoding.md R75): one constructor for each row of the opcode table,
operands in the source's order. The order of `temp` and `zero` differs between MUL, DIV, NEG and the shifts
and rotates; R75 keeps each as the source gives it (90_conflicts.md C7).
-/

namespace Sys2Proof

/-- A command of the block. `count` is an unsigned integer (R64); its range 0..65535 is checked in
`Instr.WellFormed`, and the meanings are defined for every count. -/
inductive Instr where
  /-- `ADD(lhs, rhs)` -/
  | add (lhs rhs : Reg)
  /-- `SUB(lhs, rhs)` -/
  | sub (lhs rhs : Reg)
  /-- `MUL(lhs, rhs, temp, zero)` -/
  | mul (lhs rhs temp zero : Reg)
  /-- `DIV(lhs, rhs, quotient, temp, zero)` -/
  | div (lhs rhs quotient temp zero : Reg)
  /-- `INC(reg)` -/
  | inc (reg : Reg)
  /-- `DEC(reg)` -/
  | dec (reg : Reg)
  /-- `NEG(reg, temp, zero)` -/
  | neg (reg temp zero : Reg)
  /-- `SHL(reg, count, zero, temp)` -/
  | shl (reg : Reg) (count : Nat) (zero temp : Reg)
  /-- `SHR(reg, count, zero, temp)` -/
  | shr (reg : Reg) (count : Nat) (zero temp : Reg)
  /-- `SAR(reg, count, zero, temp)` -/
  | sar (reg : Reg) (count : Nat) (zero temp : Reg)
  /-- `ROL(reg, count, zero, temp)` -/
  | rol (reg : Reg) (count : Nat) (zero temp : Reg)
  /-- `ROR(reg, count, zero, temp)` -/
  | ror (reg : Reg) (count : Nat) (zero temp : Reg)
  /-- `CMP(lhs, rhs, temp)` -/
  | cmp (lhs rhs temp : Reg)
  /-- `MOV(dst, src)` -/
  | mov (dst src : Reg)
  /-- `LDI(reg, imm)` -/
  | ldi (reg : Reg) (imm : Word)
deriving DecidableEq, Repr

/-- The operation's name in the opcode table (R66). -/
def Instr.mnemonic : Instr → String
  | .add _ _ => "ADD"
  | .sub _ _ => "SUB"
  | .mul _ _ _ _ => "MUL"
  | .div _ _ _ _ _ => "DIV"
  | .inc _ => "INC"
  | .dec _ => "DEC"
  | .neg _ _ _ => "NEG"
  | .shl _ _ _ _ => "SHL"
  | .shr _ _ _ _ => "SHR"
  | .sar _ _ _ _ => "SAR"
  | .rol _ _ _ _ => "ROL"
  | .ror _ _ _ _ => "ROR"
  | .cmp _ _ _ => "CMP"
  | .mov _ _ => "MOV"
  | .ldi _ _ => "LDI"

end Sys2Proof
end

