-- ==== Sys2Proof/WellFormed.lean ====
section
/-!
DEFINITION. When a command is one that a command word can carry (30_encoding.md R64, R75). Register
indices and the literal are in range by their types; the count of a shift or rotate is the one operand to
check. Operand distinctness (70_reset_and_hazards.md R225) is no part of this: R70 has it checked when the
command executes, and `Machine/Operands.lean` holds it.
-/

namespace Sys2Proof

/-- The count a command carries, if it is a shift or a rotate (R62). -/
def Instr.count? : Instr → Option Nat
  | .shl _ n _ _ => some n
  | .shr _ n _ _ => some n
  | .sar _ n _ _ => some n
  | .rol _ n _ _ => some n
  | .ror _ n _ _ => some n
  | .add _ _ => none
  | .sub _ _ => none
  | .mul _ _ _ _ => none
  | .div _ _ _ _ _ => none
  | .inc _ => none
  | .dec _ => none
  | .neg _ _ _ => none
  | .cmp _ _ _ => none
  | .mov _ _ => none
  | .ldi _ _ => none

/-- The count lies in 0..65535 (R64: "range 0..65535"). -/
def Instr.wellFormed (i : Instr) : Bool :=
  match i.count? with
  | some n => decide (n < 2 ^ Config.countWidth)
  | none => true

/-- `Instr.wellFormed` as a proposition. -/
abbrev Instr.WellFormed (i : Instr) : Prop := i.wellFormed = true

end Sys2Proof
end

