-- ==== Sys2Proof/Decode.lean ====
section
/-!
DEFINITION. The command word: fields, decoder, encoder and the match and mask table (30_encoding.md R60 to
R71). The decoder is total on all 2^32 words (R70) and answers one command or `invalid` with the reason of
R69. It looks at no register and does not check operand distinctness.
-/

namespace Sys2Proof

/-- Why a word encodes no command (R69). -/
inductive InvalidWord where
  /-- `op` is 0x0. -/
  | reservedOpcode
  /-- A must-be-zero bit is one (R68). -/
  | mustBeZeroBitSet
deriving DecidableEq, Repr

/-- The decoder's verdict: one abstract command, or invalid (R69, R70). -/
inductive Decoded where
  | command (i : Instr)
  | invalid (why : InvalidWord)
deriving DecidableEq, Repr

/-- Bits [31:28], the opcode in every format (R60). -/
def opField (w : CmdWord) : BitVec 4 := w.extractLsb' 28 4

/-- The register field whose lowest bit is `lo` (R61, R62, R63). -/
def regField (w : CmdWord) (lo : Nat) : Reg := Fin.ofNat 16 (w.extractLsb' lo 4).toNat

/-- Field `a`, bits [27:24]. -/
def fieldA (w : CmdWord) : Reg := regField w 24

/-- Field `b`, bits [23:20]. -/
def fieldB (w : CmdWord) : Reg := regField w 20

/-- Field `c`, bits [19:16]. -/
def fieldC (w : CmdWord) : Reg := regField w 16

/-- Field `d`, bits [15:12]. -/
def fieldD (w : CmdWord) : Reg := regField w 12

/-- Field `e`, bits [11:8]. -/
def fieldE (w : CmdWord) : Reg := regField w 8

/-- Bits [15:0]: `count` in format S (R62, R64), `imm` in format I (R63, R65). -/
def lowHalf (w : CmdWord) : BitVec 16 := w.extractLsb' 0 16

/-- `count`, taken as an unsigned integer, neither extended, scaled nor reduced (R64). -/
def countField (w : CmdWord) : Nat := (lowHalf w).toNat

/-- The command `i` if the `len` bits from bit `lo` up are all zero, else the verdict invalid (R68). -/
def requireZero (w : CmdWord) (lo len : Nat) (i : Instr) : Decoded :=
  if w.extractLsb' lo len = 0#len then .command i else .invalid .mustBeZeroBitSet

/-- The decode algorithm, case by case as R70 lists it. -/
def decode (w : CmdWord) : Decoded :=
  match (opField w).toNat with
  | 0x1 => requireZero w 0 20 (.add (fieldA w) (fieldB w))
  | 0x2 => requireZero w 0 20 (.sub (fieldA w) (fieldB w))
  | 0x3 => requireZero w 0 12 (.mul (fieldA w) (fieldB w) (fieldC w) (fieldD w))
  | 0x4 => requireZero w 0 8 (.div (fieldA w) (fieldB w) (fieldC w) (fieldD w) (fieldE w))
  | 0x5 => requireZero w 0 24 (.inc (fieldA w))
  | 0x6 => requireZero w 0 24 (.dec (fieldA w))
  | 0x7 => requireZero w 0 16 (.neg (fieldA w) (fieldB w) (fieldC w))
  | 0x8 => .command (.shl (fieldA w) (countField w) (fieldB w) (fieldC w))
  | 0x9 => .command (.shr (fieldA w) (countField w) (fieldB w) (fieldC w))
  | 0xA => .command (.sar (fieldA w) (countField w) (fieldB w) (fieldC w))
  | 0xB => .command (.rol (fieldA w) (countField w) (fieldB w) (fieldC w))
  | 0xC => .command (.ror (fieldA w) (countField w) (fieldB w) (fieldC w))
  | 0xD => requireZero w 0 16 (.cmp (fieldA w) (fieldB w) (fieldC w))
  | 0xE => requireZero w 0 20 (.mov (fieldA w) (fieldB w))
  | 0xF => requireZero w 16 8 (.ldi (fieldA w) (lowHalf w))
  | _ => .invalid .reservedOpcode

/-- The instruction the decoder reads from the low `nbits` bits of `w`. Every command is one 32-bit word
(R60), so a number that does not fit one is no instruction. -/
def decodeTableWord (nbits w : Nat) : Option Instr :=
  if w % 2 ^ nbits < 2 ^ Config.cmdWidth then
    match decode (BitVec.ofNat 32 (w % 2 ^ nbits)) with
    | .command i => some i
    | .invalid _ => none
  else none

/-- A register index as a 4-bit field. -/
def regBits (r : Reg) : BitVec 4 := BitVec.ofNat 4 r.val

/-- Format R (R61): `op`, five register fields, `z`. -/
def formatR (op : BitVec 4) (a b c d e : Reg) : CmdWord :=
  op ++ regBits a ++ regBits b ++ regBits c ++ regBits d ++ regBits e ++ 0#8

/-- Format S (R62): `op`, `reg`, `zero`, `temp`, `count`. -/
def formatS (op : BitVec 4) (reg zero temp : Reg) (count : Nat) : CmdWord :=
  op ++ regBits reg ++ regBits zero ++ regBits temp ++ BitVec.ofNat 16 count

/-- Format I (R63): `op`, `reg`, `z`, `imm`. -/
def formatI (op : BitVec 4) (reg : Reg) (imm : Word) : CmdWord :=
  op ++ regBits reg ++ 0#8 ++ imm

/-- The command word of a command (R66); an unused register field is zero (R61). -/
def encode : Instr → CmdWord
  | .add lhs rhs => formatR 0x1#4 lhs rhs 0 0 0
  | .sub lhs rhs => formatR 0x2#4 lhs rhs 0 0 0
  | .mul lhs rhs temp zero => formatR 0x3#4 lhs rhs temp zero 0
  | .div lhs rhs quotient temp zero => formatR 0x4#4 lhs rhs quotient temp zero
  | .inc reg => formatR 0x5#4 reg 0 0 0 0
  | .dec reg => formatR 0x6#4 reg 0 0 0 0
  | .neg reg temp zero => formatR 0x7#4 reg temp zero 0 0
  | .shl reg count zero temp => formatS 0x8#4 reg zero temp count
  | .shr reg count zero temp => formatS 0x9#4 reg zero temp count
  | .sar reg count zero temp => formatS 0xA#4 reg zero temp count
  | .rol reg count zero temp => formatS 0xB#4 reg zero temp count
  | .ror reg count zero temp => formatS 0xC#4 reg zero temp count
  | .cmp lhs rhs temp => formatR 0xD#4 lhs rhs temp 0 0
  | .mov dst src => formatR 0xE#4 dst src 0 0 0
  | .ldi reg imm => formatI 0xF#4 reg imm

/-- A row of the table of R67. -/
structure MatchRow where
  mnemonic : String
  matchBits : CmdWord
  maskBits : CmdWord
deriving DecidableEq, Repr

/-- A word encodes a row's command iff `(w & mask) == match` (R67). -/
def MatchRow.hits (r : MatchRow) (w : CmdWord) : Bool := (w &&& r.maskBits) == r.matchBits

/-- Match and mask of each command (R67). -/
def matchTable : List MatchRow :=
  [⟨"ADD", 0x10000000#32, 0xF00FFFFF#32⟩, ⟨"SUB", 0x20000000#32, 0xF00FFFFF#32⟩,
   ⟨"MUL", 0x30000000#32, 0xF0000FFF#32⟩, ⟨"DIV", 0x40000000#32, 0xF00000FF#32⟩,
   ⟨"INC", 0x50000000#32, 0xF0FFFFFF#32⟩, ⟨"DEC", 0x60000000#32, 0xF0FFFFFF#32⟩,
   ⟨"NEG", 0x70000000#32, 0xF000FFFF#32⟩, ⟨"SHL", 0x80000000#32, 0xF0000000#32⟩,
   ⟨"SHR", 0x90000000#32, 0xF0000000#32⟩, ⟨"SAR", 0xA0000000#32, 0xF0000000#32⟩,
   ⟨"ROL", 0xB0000000#32, 0xF0000000#32⟩, ⟨"ROR", 0xC0000000#32, 0xF0000000#32⟩,
   ⟨"CMP", 0xD0000000#32, 0xF000FFFF#32⟩, ⟨"MOV", 0xE0000000#32, 0xF00FFFFF#32⟩,
   ⟨"LDI", 0xF0000000#32, 0xF0FF0000#32⟩]

end Sys2Proof
end

