-- ==== Sys2Proof/Machine/Cells.lean ====
section
/-!
DEFINITION. The gates and combinational cells of 40_bit_primitives.md (R100 to R111) and the chains made of
them (R113, R115). The additions and subtractions of the ALU's commands go through `rippleAdd` (R112, R116).
The register width is a parameter here, as R5 allows.
-/

namespace Sys2Proof.Machine

/-- NOT (R100). -/
def gateNot (x : Bool) : Bool := !x

/-- AND (R101). -/
def gateAnd (x y : Bool) : Bool := x && y

/-- OR (R102). -/
def gateOr (x y : Bool) : Bool := x || y

/-- XOR, also the inequality of two Bits (R103). -/
def gateXor (x y : Bool) : Bool := x ^^ y

/-- NAND (R104). -/
def gateNand (x y : Bool) : Bool := gateNot (gateAnd x y)

/-- NOR (R105). -/
def gateNor (x y : Bool) : Bool := gateNot (gateOr x y)

/-- XNOR, also the equality of two Bits (R106). -/
def gateXnor (x y : Bool) : Bool := gateNot (gateXor x y)

/-- `HALF_ADDER(x, y) = (SUM, CARRY)` (R108). -/
def halfAdder (x y : Bool) : Bool × Bool := (gateXor x y, gateAnd x y)

/-- `FULL_ADDER(x, y, c) = (SUM, CARRY)` (R109). -/
def fullAdder (x y c : Bool) : Bool × Bool :=
  (gateXor (gateXor x y) c, gateOr (gateAnd x y) (gateAnd (gateXor x y) c))

/-- `HALF_SUBTRACTOR(x, y) = (DIFFERENCE, BORROW)` (R110). -/
def halfSubtractor (x y : Bool) : Bool × Bool := (gateXor x y, gateAnd (gateNot x) y)

/-- `FULL_SUBTRACTOR(x, y, b) = (DIFFERENCE, BORROW)` (R111). -/
def fullSubtractor (x y b : Bool) : Bool × Bool :=
  (gateXor (gateXor x y) b,
    gateOr (gateAnd (gateNot x) y) (gateAnd (gateNot (gateXor x y)) b))

/-- `v` with the Bit at index `i` replaced by `b` and the other Bits as they were (41_register_ops.md
R121). The operations below use it at indices under the width only. -/
def placeBit {n : Nat} (v : BitVec n) (i : Nat) (b : Bool) : BitVec n :=
  if b then v ||| BitVec.twoPow n i else v &&& ~~~(BitVec.twoPow n i)

/-- The first `k` cells of the ripple-carry chain (R113): the sum bits below `k`, and the carry `c[k]`. -/
def adderChain {n : Nat} (a b : BitVec n) (cin : Bool) : Nat → BitVec n × Bool
  | 0 => (0#n, cin)
  | k + 1 =>
    let done := adderChain a b cin k
    let cell := fullAdder (a.getLsbD k) (b.getLsbD k) done.2
    (placeBit done.1 k cell.1, cell.2)

/-- `ripple_add(a, b, cin)`: the N-cell full-adder chain, `(sum, carry out of the MSB)` (R113). -/
def rippleAdd {n : Nat} (a b : BitVec n) (cin : Bool) : BitVec n × Bool := adderChain a b cin n

/-- The first `k` cells of the ripple-borrow chain (R115). -/
def subtractorChain {n : Nat} (a b : BitVec n) (bin : Bool) : Nat → BitVec n × Bool
  | 0 => (0#n, bin)
  | k + 1 =>
    let done := subtractorChain a b bin k
    let cell := fullSubtractor (a.getLsbD k) (b.getLsbD k) done.2
    (placeBit done.1 k cell.1, cell.2)

/-- `ripple_sub(a, b, bin)`: the N-cell full-subtractor chain, `(difference, borrow out)` (R115). No command
is built from it. -/
def rippleSub {n : Nat} (a b : BitVec n) (bin : Bool) : BitVec n × Bool := subtractorChain a b bin n

/-- INC's chain after `k` cells (44_inc_dec_neg.md R160): full adders with second operand 0 and carry-in 1,
which touches nothing more once the carry is 0 (R163). -/
def incChain {n : Nat} (r : BitVec n) : Nat → BitVec n × Bool
  | 0 => (r, true)
  | k + 1 =>
    let done := incChain r k
    if done.2 then
      let cell := fullAdder (r.getLsbD k) false done.2
      (placeBit done.1 k cell.1, cell.2)
    else done

/-- DEC's chain after `k` cells (44_inc_dec_neg.md R161, 90_conflicts.md C1): half subtractors with
borrow-in 1, which touches nothing more once the borrow is 0 (R163). -/
def decChain {n : Nat} (r : BitVec n) : Nat → BitVec n × Bool
  | 0 => (r, true)
  | k + 1 =>
    let done := decChain r k
    if done.2 then
      let cell := halfSubtractor (r.getLsbD k) done.2
      (placeBit done.1 k cell.1, cell.2)
    else done

end Sys2Proof.Machine
end

