-- ==== Sys2Proof/Machine/State.lean ====
section
/-!
DEFINITION. The state of the block (10_state.md): sixteen registers and four flags, and beside them the
list of inputs the host is still to present, which is the model's own field. Also the reasons a step can
stop. There is no memory, program counter, mode or saved state to hold (R26, R33 to R35, R37).
-/

namespace Sys2Proof.Machine

/-- The four one-bit flags of the ALU (10_state.md R27). -/
structure Flags where
  /-- CF: carry or borrow out of the MSB, or last bit shifted or rotated out. -/
  cf : Bool
  /-- ZF: the result is the all-zero pattern. -/
  zf : Bool
  /-- SF: copy of the result's MSB. -/
  sf : Bool
  /-- OF: signed overflow occurred. -/
  of : Bool
deriving DecidableEq, Repr

/-- What the host can do to the block between two commands (20_memory.md R43, R46, R49). Reads of registers
and flags change nothing (R44, R45) and are functions of the state, so they are no input. -/
inductive HostInput where
  /-- A command word on the command port (R43). -/
  | command (w : CmdWord)
  /-- The reset input is asserted (R46, 70_reset_and_hazards.md R220). -/
  | reset
  /-- Two command streams present a word to the one block at the same time (R49; log 3). -/
  | concurrent (w₁ w₂ : CmdWord)
deriving DecidableEq, Repr

/-- Why a step faults: never. The block raises no exception, has no fault and no stuck state
(60_exceptions.md R200, 70_reset_and_hazards.md R228), so the type has no constructor. Division by zero
completes and is signalled in the flags (60_exceptions.md R201). -/
inductive Fault
deriving DecidableEq, Repr

/-- Why a step is refused: the complete list of 70_reset_and_hazards.md R228, and `notModelled`. A refused
command is given no effect at all; the spec defines none, so each refusal is safe. -/
inductive Refusal where
  /-- Raised by an arm of `exec` whose instruction has no meaning yet; no arm raises it. Safe. -/
  | notModelled (mnemonic : String)
  /-- Raised by `step` on a word that decodes to `invalid` (30_encoding.md R69). Safe. -/
  | invalidCommandWord
  /-- Raised by MUL, DIV, NEG, CMP, the shifts and the rotates when the operands break the table of
  70_reset_and_hazards.md R225. Safe. -/
  | operandAlias
  /-- Raised by MUL, DIV, NEG, the shifts and the rotates when `x[zero]` is not all zero
  (70_reset_and_hazards.md R226). Safe. -/
  | zeroOperandNotZero
  /-- Raised by `step` when two command streams use the block at once (20_memory.md R49). Safe. -/
  | concurrentUse
deriving DecidableEq, Repr

/-- The state (10_state.md R20, R27, R35): registers, flags, and the host's inputs still to come. -/
structure State where
  /-- `x[0]`..`x[15]`, the contents of `r0`..`r15` (R20). -/
  regs : Vector Word 16
  /-- CF, ZF, SF, OF (R27). -/
  flags : Flags
  /-- The inputs the host will present, the next one first: the model's own field (log 1). -/
  port : List HostInput
deriving DecidableEq, Repr

/-- The four flags at `FLAGS_RESET` (R31). -/
def Flags.reset : Flags :=
  { cf := Config.flagsReset.getLsbD 0
    zf := Config.flagsReset.getLsbD 1
    sf := Config.flagsReset.getLsbD 2
    of := Config.flagsReset.getLsbD 3 }

/-- The block right after reset (10_state.md R36, R37): every register zero, every flag 0. The host has
presented nothing yet (log 1). -/
def State.reset : State :=
  { regs := Vector.replicate 16 0#16
    flags := Flags.reset
    port := [] }

/-- What a meaning answers. -/
abbrev Result := Host.Outcome State Fault Refusal

end Sys2Proof.Machine
end

