-- ==== Sys2Proof/Machine/Ops.lean ====
section
/-!
DEFINITION. The named operations over registers and flags, the host's read interface and its inputs
(20_memory.md R43 to R46, R51; 41_register_ops.md R120 to R127). The block has no memory and takes no
exception (R40, R200, R204), so there is no memory operation and no trap entry or return here.
-/

namespace Sys2Proof.Machine

/-- `x[r]`: the content of register `r` (R20). No register is hardwired or special (R21). -/
def State.reg (s : State) (r : Reg) : Word := s.regs[r.val]

/-- `x[r] <- v` (R21, R51): every other register keeps its content. -/
def State.setReg (s : State) (r : Reg) (v : Word) : State := { s with regs := s.regs.set r.val v }

/-- All four flags written at once. -/
def State.setFlags (s : State) (f : Flags) : State := { s with flags := f }

/-- The register read port: all N bits of `x[i]` (R44). -/
def State.readReg (s : State) (i : Reg) : Word := s.reg i

/-- The flag read port: `FLAGS[3:0] = (OF, SF, ZF, CF)` (R45; 10_state.md R32). -/
def State.readFlags (s : State) : BitVec 4 :=
  BitVec.ofBool s.flags.of ++ BitVec.ofBool s.flags.sf ++ BitVec.ofBool s.flags.zf ++
    BitVec.ofBool s.flags.cf

/-- Bit read `v[i]`, for `0 <= i < N` (R120); an index out of range is refused (R42). -/
def readBit {n : Nat} (v : BitVec n) (i : Nat) : Option Bool :=
  if i < n then some (v.getLsbD i) else none

/-- Bit write `v[i] <- b`, for `0 <= i < N` (R121); an index out of range is refused (R42). -/
def writeBit {n : Nat} (v : BitVec n) (i : Nat) (b : Bool) : Option (BitVec n) :=
  if i < n then some (placeBit v i b) else none

/-- Unsigned reading into `m` bits, for a target at least as wide as the register (R122); a narrower
target is outside the interface (R124) and answered with `none` (DESIGN CHOICE, log 10; safe). -/
def toUnsigned (m : Nat) (v : Word) : Option (BitVec m) :=
  if Config.architecture ≤ m then some (v.setWidth m) else none

/-- Signed reading into `m` bits, for a target at least as wide as the register (R123); a narrower
target is outside the interface (R124) and answered with `none` (DESIGN CHOICE, log 10; safe). -/
def toSigned (m : Nat) (v : Word) : Option (BitVec m) :=
  if Config.architecture ≤ m then some (v.signExtend m) else none

/-- Register equality: XNOR of the Bits at every index (R126). -/
def wordsEqual {n : Nat} (v w : BitVec n) : Bool :=
  (List.range n).all fun i => gateXnor (v.getLsbD i) (w.getLsbD i)

/-- The register made from an integer: its two's-complement pattern, bits above `N` discarded (R127, R65). -/
def wordOfInt (k : Int) : Word := BitVec.ofInt 16 k

/-- The reset input (R46, 70_reset_and_hazards.md R220): every register and flag at its reset value. What
the host will present next is no state of the block and stays. -/
def State.applyReset (s : State) : State := { State.reset with port := s.port }

/-- The next input of the host and the state with that input taken, if the host presents one (R43, R47). -/
def State.takeInput (s : State) : Option (HostInput × State) :=
  match s.port with
  | [] => none
  | input :: later => some (input, { s with port := later })

/-- The state in which the host presents the word `w` next, before everything else it has to present. -/
def State.presentNext (s : State) (w : CmdWord) : State :=
  { s with port := .command w :: s.port }

end Sys2Proof.Machine
end

