-- ==== Sys2Proof/Machine/Flags.lean ====
section
/-!
DEFINITION. Every flag computation of the spec (10_state.md R27, R28), and the data-path operations that
give a result together with its flags: ADD's and SUB's chain (42_add_sub.md), the internal CMP (47_cmp.md
R191), the one-bit moves of the shifts and rotates (45_shifts.md, 46_rotates.md). The width is a parameter.
-/

namespace Sys2Proof.Machine

/-- `result == 0_N` (R27, R142). -/
def isZero {n : Nat} (v : BitVec n) : Bool := v == 0#n

/-- The flags of ADD on `a`, `b` with sum `s` and final carry `cout` (R140). -/
def addFlags {n : Nat} (a b s : BitVec n) (cout : Bool) : Flags :=
  { cf := cout
    zf := isZero s
    sf := s.msb
    of := (a.msb == b.msb) && (s.msb != a.msb) }

/-- The flags of SUB and CMP on `a`, `b` with difference `s` and final carry `cout` (R141, R190). -/
def subFlags {n : Nat} (a b s : BitVec n) (cout : Bool) : Flags :=
  { cf := !cout
    zf := isZero s
    sf := s.msb
    of := (a.msb != b.msb) && (s.msb != a.msb) }

/-- The flags of INC from `r` to `s`: CF is not written (R160). -/
def incFlags {n : Nat} (old : Flags) (r s : BitVec n) : Flags :=
  { old with zf := isZero s, sf := s.msb, of := !r.msb && s.msb }

/-- The flags of DEC from `r` to `s`: CF is not written (R161). -/
def decFlags {n : Nat} (old : Flags) (r s : BitVec n) : Flags :=
  { old with zf := isZero s, sf := s.msb, of := r.msb && !s.msb }

/-- The flags of NEG from `r` to `s` (R162, 90_conflicts.md C2). -/
def negFlags {n : Nat} (r s : BitVec n) : Flags :=
  { cf := !isZero s, zf := isZero s, sf := s.msb, of := r.msb && s.msb }

/-- The flags of a division by zero: ZF = CF = OF = 1, SF = 0 (43_mul_div.md R153). -/
def divByZeroFlags : Flags := { cf := true, zf := true, sf := false, of := true }

/-- `a + b` by the ripple-carry chain, with ADD's flags (R140). -/
def addWords {n : Nat} (a b : BitVec n) : BitVec n × Flags :=
  let r := rippleAdd a b false
  (r.1, addFlags a b r.1 r.2)

/-- `a + (NOT b + 1)` by the ripple-carry chain, with SUB's flags (R141). CMP is this on a copy of `a`
(R190). -/
def subWords {n : Nat} (a b : BitVec n) : BitVec n × Flags :=
  let r := rippleAdd a (~~~b) true
  (r.1, subFlags a b r.1 r.2)

/-- INC's value (R160). -/
def incWord {n : Nat} (r : BitVec n) : BitVec n := (incChain r n).1

/-- DEC's value (R161). -/
def decWord {n : Nat} (r : BitVec n) : BitVec n := (decChain r n).1

/-- NEG's value: `zero - reg` by the chain, with `zero` the all-zero pattern (R162). -/
def negWord {n : Nat} (r : BitVec n) : BitVec n := (rippleAdd 0#n (~~~r) true).1

/-- A value being moved bit by bit, and the last bit moved out (0 before the first move). -/
abbrev Moved (n : Nat) := BitVec n × Bool

/-- One left move: the MSB leaves, 0 enters at bit 0 (45_shifts.md R171). -/
def shlMove {n : Nat} (m : Moved n) : Moved n := (m.1 <<< 1, m.1.msb)

/-- One right move: bit 0 leaves, 0 enters at the MSB (R172). -/
def shrMove {n : Nat} (m : Moved n) : Moved n := (m.1 >>> 1, m.1.getLsbD 0)

/-- One right move: bit 0 leaves, `sign` enters at the MSB (R173). -/
def sarMove {n : Nat} (sign : Bool) (m : Moved n) : Moved n :=
  (placeBit (m.1 >>> 1) (n - 1) sign, m.1.getLsbD 0)

/-- One left rotation: the MSB leaves and comes back at bit 0 (46_rotates.md R180). -/
def rolMove {n : Nat} (m : Moved n) : Moved n := (placeBit (m.1 <<< 1) 0 m.1.msb, m.1.msb)

/-- One right rotation: bit 0 leaves and comes back at the MSB (R181). -/
def rorMove {n : Nat} (m : Moved n) : Moved n :=
  (placeBit (m.1 >>> 1) (n - 1) (m.1.getLsbD 0), m.1.getLsbD 0)

/-- `k` moves of the value `v`, one bit position at a time. -/
def moveSteps {n : Nat} (move : Moved n → Moved n) (k : Nat) (v : BitVec n) : Moved n :=
  move^[k] (v, false)

/-- The effective count of a shift: counts of N and more act as N (45_shifts.md R170 item 1). -/
def shiftSteps (n count : Nat) : Nat := min count n

/-- The net rotation: the count modulo N (46_rotates.md R182 item 1). -/
def rotateSteps (n count : Nat) : Nat := count % n

/-- SHL's moves for an operand `count` (R171). -/
def shlWord {n : Nat} (v : BitVec n) (count : Nat) : Moved n := moveSteps shlMove (shiftSteps n count) v

/-- SHR's moves (R172). -/
def shrWord {n : Nat} (v : BitVec n) (count : Nat) : Moved n := moveSteps shrMove (shiftSteps n count) v

/-- SAR's moves: the fill is the original sign bit throughout (R173). -/
def sarWord {n : Nat} (v : BitVec n) (count : Nat) : Moved n :=
  moveSteps (sarMove v.msb) (shiftSteps n count) v

/-- ROL's moves (R180). -/
def rolWord {n : Nat} (v : BitVec n) (count : Nat) : Moved n := moveSteps rolMove (rotateSteps n count) v

/-- ROR's moves (R181). -/
def rorWord {n : Nat} (v : BitVec n) (count : Nat) : Moved n := moveSteps rorMove (rotateSteps n count) v

/-- The flags a shift or rotate leaves after `steps` moves: those of the internal CMP, then CF is
overwritten with the last bit moved out if there was a move, and OF if the net count was one bit
(R170 item 3, R182 item 3). `ofAtOne` is the instruction's OF for one bit. -/
def moveFlags (compared : Flags) (steps : Nat) (out : Bool) (netOne : Bool) (ofAtOne : Bool) : Flags :=
  { compared with
    cf := if 1 ≤ steps then out else compared.cf
    of := if netOne then ofAtOne else compared.of }

/-- OF of SHL and ROL at one bit: `SF xor CF` (R171, R180). -/
def signChangeOf {n : Nat} (m : Moved n) : Bool := m.1.msb ^^ m.2

/-- OF of ROR at one bit: the new MSB xor the new second-highest bit (R181). -/
def topTwoOf {n : Nat} (m : Moved n) : Bool := m.1.msb ^^ m.1.getLsbD (n - 2)

end Sys2Proof.Machine
end

