-- ==== Sys2Proof/Machine/Operands.lean ====
section
/-!
DEFINITION. The operand rules of the commands: which registers a command reads, writes and takes as scratch
(10_state.md R23), the distinctness table and the `zero` operand (70_reset_and_hazards.md R225, R226), and
the one shared ending of the shifts and rotates (45_shifts.md R170, 46_rotates.md R182).
-/

namespace Sys2Proof.Machine

/-- The registers a command can write (R23). DIV by zero writes only `lhs` (43_mul_div.md R153). -/
def writtenRegs : Instr → List Reg
  | .add lhs _ => [lhs]
  | .sub lhs _ => [lhs]
  | .mul lhs _ temp _ => [lhs, temp]
  | .div lhs _ quotient temp _ => [lhs, quotient, temp]
  | .inc reg => [reg]
  | .dec reg => [reg]
  | .neg reg temp _ => [reg, temp]
  | .shl reg _ _ temp => [reg, temp]
  | .shr reg _ _ temp => [reg, temp]
  | .sar reg _ _ temp => [reg, temp]
  | .rol reg _ _ temp => [reg, temp]
  | .ror reg _ _ temp => [reg, temp]
  | .cmp _ _ temp => [temp]
  | .mov dst _ => [dst]
  | .ldi reg _ => [reg]

/-- The registers a command reads (R23). -/
def readRegs : Instr → List Reg
  | .add lhs rhs => [lhs, rhs]
  | .sub lhs rhs => [lhs, rhs]
  | .mul lhs rhs _ zero => [lhs, rhs, zero]
  | .div lhs rhs _ _ zero => [lhs, rhs, zero]
  | .inc reg => [reg]
  | .dec reg => [reg]
  | .neg reg _ zero => [reg, zero]
  | .shl reg _ zero _ => [reg, zero]
  | .shr reg _ zero _ => [reg, zero]
  | .sar reg _ zero _ => [reg, zero]
  | .rol reg _ zero _ => [reg, zero]
  | .ror reg _ zero _ => [reg, zero]
  | .cmp lhs rhs _ => [lhs, rhs]
  | .mov _ src => [src]
  | .ldi _ _ => []

/-- The `zero` operand of a command that takes one (R226). -/
def zeroOperand : Instr → Option Reg
  | .mul _ _ _ zero => some zero
  | .div _ _ _ _ zero => some zero
  | .neg _ _ zero => some zero
  | .shl _ _ zero _ => some zero
  | .shr _ _ zero _ => some zero
  | .sar _ _ zero _ => some zero
  | .rol _ _ zero _ => some zero
  | .ror _ _ zero _ => some zero
  | .add _ _ => none
  | .sub _ _ => none
  | .inc _ => none
  | .dec _ => none
  | .cmp _ _ _ => none
  | .mov _ _ => none
  | .ldi _ _ => none

/-- A scratch operand and every other register operand of the command, for each scratch operand
(R225 item 2). -/
def scratchPairs : Instr → List (Reg × List Reg)
  | .mul lhs rhs temp zero => [(temp, [lhs, rhs, zero])]
  | .div lhs rhs quotient temp zero =>
    [(quotient, [lhs, rhs, temp, zero]), (temp, [lhs, rhs, quotient, zero])]
  | .neg reg temp zero => [(temp, [reg, zero])]
  | .shl reg _ zero temp => [(temp, [reg, zero])]
  | .shr reg _ zero temp => [(temp, [reg, zero])]
  | .sar reg _ zero temp => [(temp, [reg, zero])]
  | .rol reg _ zero temp => [(temp, [reg, zero])]
  | .ror reg _ zero temp => [(temp, [reg, zero])]
  | .cmp lhs rhs temp => [(temp, [lhs, rhs])]
  | .add _ _ => []
  | .sub _ _ => []
  | .inc _ => []
  | .dec _ => []
  | .mov _ _ => []
  | .ldi _ _ => []

/-- The register whose final content ZF and SF describe (42_add_sub.md R142): the destination of a flagged
operation, for CMP the difference in `temp`, for DIV the quotient in `lhs`. MUL is the one flagged operation
whose rule says otherwise (43_mul_div.md R151); MOV and LDI are not flagged. -/
def flaggedDestination : Instr → Option Reg
  | .add lhs _ => some lhs
  | .sub lhs _ => some lhs
  | .mul _ _ _ _ => none
  | .div lhs _ _ _ _ => some lhs
  | .inc reg => some reg
  | .dec reg => some reg
  | .neg reg _ _ => some reg
  | .shl reg _ _ _ => some reg
  | .shr reg _ _ _ => some reg
  | .sar reg _ _ _ => some reg
  | .rol reg _ _ _ => some reg
  | .ror reg _ _ _ => some reg
  | .cmp _ _ temp => some temp
  | .mov _ _ => none
  | .ldi _ _ => none

/-- The flags a command leaves, when it starts from flags `f` and would leave `written` from some other start:
MOV and LDI write no flag, INC and DEC write all but CF, every other command writes all four (10_state.md
R28). -/
def flagsAfter (i : Instr) (f written : Flags) : Flags :=
  match i with
  | .mov _ _ => f
  | .ldi _ _ => f
  | .inc _ => { written with cf := f.cf }
  | .dec _ => { written with cf := f.cf }
  | .add _ _ => written
  | .sub _ _ => written
  | .mul _ _ _ _ => written
  | .div _ _ _ _ _ => written
  | .neg _ _ _ => written
  | .shl _ _ _ _ => written
  | .shr _ _ _ _ => written
  | .sar _ _ _ _ => written
  | .rol _ _ _ _ => written
  | .ror _ _ _ _ => written
  | .cmp _ _ _ => written

/-- `temp` differs from `reg` and `zero`, and `zero` from `reg`: the row of NEG, the shifts and the rotates
(R225). -/
def unaryDistinct (reg zero temp : Reg) : Bool := decide (temp ∉ [reg, zero] ∧ zero ≠ reg)

/-- The table of R225, row by row. -/
def operandsDistinct : Instr → Bool
  | .mul lhs rhs temp zero => decide (temp ∉ [lhs, rhs, zero] ∧ zero ≠ lhs)
  | .div lhs rhs quotient temp zero =>
    decide (quotient ∉ [lhs, rhs, temp, zero] ∧ temp ∉ [lhs, rhs, zero] ∧ zero ≠ lhs)
  | .neg reg temp zero => unaryDistinct reg zero temp
  | .shl reg _ zero temp => unaryDistinct reg zero temp
  | .shr reg _ zero temp => unaryDistinct reg zero temp
  | .sar reg _ zero temp => unaryDistinct reg zero temp
  | .rol reg _ zero temp => unaryDistinct reg zero temp
  | .ror reg _ zero temp => unaryDistinct reg zero temp
  | .cmp lhs rhs temp => decide (temp ∉ [lhs, rhs])
  | .add _ _ => true
  | .sub _ _ => true
  | .inc _ => true
  | .dec _ => true
  | .mov _ _ => true
  | .ldi _ _ => true

/-- The `zero` operand, if the command takes one, holds the all-zero pattern (R226). -/
def zeroOperandHolds (i : Instr) (s : State) : Bool :=
  match zeroOperand i with
  | some zero => isZero (s.reg zero)
  | none => true

/-- The two domain checks, `OperandAlias` before `ZeroOperandNotZero` (R228), and then the command's effect
(60_exceptions.md R203). -/
def guarded (i : Instr) (s : State) (effect : State) : Result :=
  if operandsDistinct i then
    if zeroOperandHolds i s then .next effect else .refused .zeroOperandNotZero
  else .refused .operandAlias

/-- The ending of a shift or rotate (R170 items 3 to 5, R182 items 3 to 6): the moved value goes to `reg`; the
internal CMP against `zero` writes its difference to `temp` and the four flags; then CF and OF are
overwritten as `moveFlags` says. -/
def finishMove (s : State) (reg zero temp : Reg) (m : Moved 16) (steps : Nat) (netOne ofAtOne : Bool) : State :=
  let compared := subWords m.1 (s.reg zero)
  ((s.setReg reg m.1).setReg temp compared.1).setFlags (moveFlags compared.2 steps m.2 netOne ofAtOne)

end Sys2Proof.Machine
end

