-- ==== Sys2Proof/Machine/AddSub.lean ====
section
/-!
DEFINITION. ADD and SUB (42_add_sub.md R140 to R142). Both operands are read before `lhs` is written, so
`lhs` and `rhs` may be one register (70_reset_and_hazards.md R224).
-/

namespace Sys2Proof.Machine

/-- `ADD(lhs, rhs)` (R140). -/
def execAdd (lhs rhs : Reg) (s : State) : Result :=
  let r := addWords (s.reg lhs) (s.reg rhs)
  .next ((s.setReg lhs r.1).setFlags r.2)

/-- `SUB(lhs, rhs)` (R141). -/
def execSub (lhs rhs : Reg) (s : State) : Result :=
  let r := subWords (s.reg lhs) (s.reg rhs)
  .next ((s.setReg lhs r.1).setFlags r.2)

end Sys2Proof.Machine
end

