-- ==== Sys2Proof/Machine/Cmp.lean ====
section
/-!
DEFINITION. CMP, the non-destructive comparison (47_cmp.md R190).
-/

namespace Sys2Proof.Machine

/-- `CMP(lhs, rhs, temp)` (R190): the difference goes to `temp`, the flags are SUB's. -/
def execCmp (lhs rhs temp : Reg) (s : State) : Result :=
  let r := subWords (s.reg lhs) (s.reg rhs)
  guarded (.cmp lhs rhs temp) s ((s.setReg temp r.1).setFlags r.2)

end Sys2Proof.Machine
end

