-- ==== Sys2Proof/Machine/IncDecNeg.lean ====
section
/-!
DEFINITION. INC, DEC and NEG (44_inc_dec_neg.md R160 to R163).
-/

namespace Sys2Proof.Machine

/-- `INC(reg)` (R160): CF is left as it was. -/
def execInc (reg : Reg) (s : State) : Result :=
  let v := incWord (s.reg reg)
  .next ((s.setReg reg v).setFlags (incFlags s.flags (s.reg reg) v))

/-- `DEC(reg)` (R161): CF is left as it was. -/
def execDec (reg : Reg) (s : State) : Result :=
  let v := decWord (s.reg reg)
  .next ((s.setReg reg v).setFlags (decFlags s.flags (s.reg reg) v))

/-- `NEG(reg, temp, zero)` (R162): the result goes to `reg` and to `temp`. -/
def execNeg (reg temp zero : Reg) (s : State) : Result :=
  let v := negWord (s.reg reg)
  guarded (.neg reg temp zero) s
    (((s.setReg reg v).setReg temp v).setFlags (negFlags (s.reg reg) v))

end Sys2Proof.Machine
end

