-- ==== Sys2Proof/Machine/LoadHelper.lean ====
section
/-!
DEFINITION. The load helper's two commands, MOV and LDI (41_register_ops.md R128, R129). They write no flag.
-/

namespace Sys2Proof.Machine

/-- `MOV(dst, src)` (R128). -/
def execMov (dst src : Reg) (s : State) : Result := .next (s.setReg dst (s.reg src))

/-- `LDI(reg, imm)` (R129). -/
def execLdi (reg : Reg) (imm : Word) (s : State) : Result := .next (s.setReg reg imm)

end Sys2Proof.Machine
end

