-- ==== Sys2Proof/Machine/MulDiv.lean ====
section
/-!
DEFINITION. MUL and DIV (43_mul_div.md R150 to R155). MUL runs the shift-and-add loop of R150 on the
cells. DIV answers the quotient and remainder that R152 states as its result; the repeated subtraction of
R152 stands beside it as `repeatedSubtraction`, and an obligation states that the two agree, as
40_bit_primitives.md R112 asks (log 6).
-/

namespace Sys2Proof.Machine

/-- What MUL's loop carries: the accumulator, the shifted copy of the multiplicand, and the flags its
internal steps leave (R150). None of it is state of the block (10_state.md R33). -/
structure MulWork where
  acc : Word
  shifted : Word
  flags : Flags
deriving DecidableEq, Repr

/-- Add the shifted multiplicand into the accumulator when the multiplier's bit is 1 (R150). -/
def mulAccumulate (bit : Bool) (m : MulWork) : MulWork :=
  if bit then
    let r := addWords m.acc m.shifted
    { m with acc := r.1, flags := r.2 }
  else m

/-- Shift the multiplicand left by one, with the flags of SHL at count 1 (R150, R171). -/
def mulShift (m : MulWork) : MulWork :=
  let r := shlWord m.shifted 1
  { m with shifted := r.1, flags := moveFlags (subWords r.1 0#16).2 1 r.2 true (signChangeOf r) }

/-- The first `k` iterations of MUL's loop on multiplier `q`, from `m` (R150). -/
def mulLoop (q : Word) (m : MulWork) : Nat → MulWork
  | 0 => m
  | k + 1 => mulShift (mulAccumulate (q.getLsbD k) (mulLoop q m k))

/-- `MUL(lhs, rhs, temp, zero)` (R150, R151): the flags are whatever the last internal step left. -/
def execMul (lhs rhs temp zero : Reg) (s : State) : Result :=
  let r := mulLoop (s.reg rhs) ⟨0#16, s.reg lhs, s.flags⟩ Config.architecture
  guarded (.mul lhs rhs temp zero) s (((s.setReg lhs r.acc).setReg temp r.shifted).setFlags r.flags)

/-- DIV's loop (R152): subtract `b` from the working value `w`, counting in `q` while no subtraction
borrows; add `b` back after the one that does. Answers quotient and remainder. `fuel` bounds the number of
subtractions. -/
def divLoop (b : Word) : Nat → Word → Word → Word × Word
  | 0, q, w => (q, w)
  | fuel + 1, q, w =>
    let d := rippleAdd w (~~~b) true
    if d.2 then divLoop b fuel (rippleAdd q 0#16 true).1 d.1 else (q, (rippleAdd d.1 b false).1)

/-- R152's loop from quotient 0 and working value `a`. It makes at most 2^16 subtractions
(70_reset_and_hazards.md R230). -/
def repeatedSubtraction (a b : Word) : Word × Word := divLoop b (2 ^ 16) 0#16 a

/-- Quotient and remainder as R152 states them: `floor(u(A) / u(B))` and `u(A) mod u(B)`. Both operands are
unsigned whatever their MSB (R154). -/
def divWords (a b : Word) : Word × Word := (a / b, a % b)

/-- The effect of DIV on a divisor that is not zero (R152): ZF and SF by the internal CMP of the quotient
against `zero`, CF and OF cleared. -/
def divEffect (lhs rhs quotient temp zero : Reg) (s : State) : State :=
  let r := divWords (s.reg lhs) (s.reg rhs)
  let compared := (subWords r.1 (s.reg zero)).2
  (((s.setReg lhs r.1).setReg quotient r.1).setReg temp r.2).setFlags
    { compared with cf := false, of := false }

/-- The effect of DIV on a zero divisor (R153, 60_exceptions.md R201): `lhs` is zeroed, the flags signal,
`quotient` and `temp` keep their values. -/
def divByZeroEffect (lhs : Reg) (s : State) : State := (s.setReg lhs 0#16).setFlags divByZeroFlags

/-- `DIV(lhs, rhs, quotient, temp, zero)` (R152, R153): after the domain checks, `rhs` is first compared to
`zero` by register equality (R126, R203). -/
def execDiv (lhs rhs quotient temp zero : Reg) (s : State) : Result :=
  guarded (.div lhs rhs quotient temp zero) s
    (if wordsEqual (s.reg rhs) (s.reg zero) then divByZeroEffect lhs s
      else divEffect lhs rhs quotient temp zero s)

end Sys2Proof.Machine
end

