-- ==== Sys2Proof/Machine/Rotates.lean ====
section
/-!
DEFINITION. ROL and ROR (46_rotates.md R180 to R182). They do not rotate through CF.
-/

namespace Sys2Proof.Machine

/-- `ROL(reg, count, zero, temp)` (R180): at a net rotation of 1, `OF = SF xor CF`. -/
def execRol (reg : Reg) (count : Nat) (zero temp : Reg) (s : State) : Result :=
  let m := rolWord (s.reg reg) count
  guarded (.rol reg count zero temp) s
    (finishMove s reg zero temp m (rotateSteps 16 count) (rotateSteps 16 count == 1) (signChangeOf m))

/-- `ROR(reg, count, zero, temp)` (R181): at a net rotation of 1, OF is the xor of the new top two bits. -/
def execRor (reg : Reg) (count : Nat) (zero temp : Reg) (s : State) : Result :=
  let m := rorWord (s.reg reg) count
  guarded (.ror reg count zero temp) s
    (finishMove s reg zero temp m (rotateSteps 16 count) (rotateSteps 16 count == 1) (topTwoOf m))

end Sys2Proof.Machine
end

