-- ==== Sys2Proof/Machine/Shifts.lean ====
section
/-!
DEFINITION. SHL, SHR and SAR (45_shifts.md R170 to R173).
-/

namespace Sys2Proof.Machine

/-- `SHL(reg, count, zero, temp)` (R171): at count 1, `OF = SF xor CF`. -/
def execShl (reg : Reg) (count : Nat) (zero temp : Reg) (s : State) : Result :=
  let m := shlWord (s.reg reg) count
  guarded (.shl reg count zero temp) s
    (finishMove s reg zero temp m (shiftSteps 16 count) (count == 1) (signChangeOf m))

/-- `SHR(reg, count, zero, temp)` (R172): OF is 0 at every count. -/
def execShr (reg : Reg) (count : Nat) (zero temp : Reg) (s : State) : Result :=
  guarded (.shr reg count zero temp) s
    (finishMove s reg zero temp (shrWord (s.reg reg) count) (shiftSteps 16 count) (count == 1) false)

/-- `SAR(reg, count, zero, temp)` (R173): OF is 0 at every count. -/
def execSar (reg : Reg) (count : Nat) (zero temp : Reg) (s : State) : Result :=
  guarded (.sar reg count zero temp) s
    (finishMove s reg zero temp (sarWord (s.reg reg) count) (shiftSteps 16 count) (count == 1) false)

end Sys2Proof.Machine
end

