-- ==== Sys2Proof/Machine/Dispatch.lean ====
section
/-!
DEFINITION. One arm per command, each one call of the command's meaning.
-/

namespace Sys2Proof.Machine

def exec (i : Instr) (s : State) : Host.Outcome State Fault Refusal :=
  match i with
  | .add lhs rhs => Sys2Proof.Machine.execAdd lhs rhs s
  | .sub lhs rhs => Sys2Proof.Machine.execSub lhs rhs s
  | .mul lhs rhs temp zero => Sys2Proof.Machine.execMul lhs rhs temp zero s
  | .div lhs rhs quotient temp zero => Sys2Proof.Machine.execDiv lhs rhs quotient temp zero s
  | .inc reg => Sys2Proof.Machine.execInc reg s
  | .dec reg => Sys2Proof.Machine.execDec reg s
  | .neg reg temp zero => Sys2Proof.Machine.execNeg reg temp zero s
  | .shl reg count zero temp => Sys2Proof.Machine.execShl reg count zero temp s
  | .shr reg count zero temp => Sys2Proof.Machine.execShr reg count zero temp s
  | .sar reg count zero temp => Sys2Proof.Machine.execSar reg count zero temp s
  | .rol reg count zero temp => Sys2Proof.Machine.execRol reg count zero temp s
  | .ror reg count zero temp => Sys2Proof.Machine.execRor reg count zero temp s
  | .cmp lhs rhs temp => Sys2Proof.Machine.execCmp lhs rhs temp s
  | .mov dst src => Sys2Proof.Machine.execMov dst src s
  | .ldi reg imm => Sys2Proof.Machine.execLdi reg imm s

end Sys2Proof.Machine
end

