-- ==== Sys2Proof/Machine/Step.lean ====
section
/-!
DEFINITION. One step of the block: it takes the host's next input (20_memory.md R43, R46, R47). A command word
is decoded and executed, or refused if it is invalid (30_encoding.md R69, R70). When the host presents nothing,
nothing changes (10_state.md R24; log 2).
-/

namespace Sys2Proof.Machine

/-- One step. -/
def step (s : State) : Host.Outcome State Fault Refusal :=
  match s.takeInput with
  | none => .next s
  | some (.reset, t) => .next t.applyReset
  | some (.concurrent _ _, _) => .refused .concurrentUse
  | some (.command w, t) =>
    match decode w with
    | .command i => exec i t
    | .invalid _ => .refused .invalidCommandWord

/-- `s` with the instruction word `w` presented by the host as its next command (log 1). -/
def State.withFetchWord (s : State) (nbits w : Nat) : State :=
  s.presentNext (BitVec.ofNat 32 (w % 2 ^ nbits))

end Sys2Proof.Machine
end

