-- ==== Sys2Proof/Machine/Assembler.lean ====
section
/-!
DEFINITION. The textual form of a command (30_encoding.md R72 to R74) and its assembly to command words. It is
a tool of the host's side: no step of the block reads text.
-/

namespace Sys2Proof.Machine

/-- `r0`..`r15` (R73). -/
def regText (r : Reg) : List Char := 'r' :: Nat.toDigits 10 r.val

/-- A decimal numeral (R73); the printer uses no other base (DESIGN CHOICE, log 4; unsafe for text only). -/
def natText (n : Nat) : List Char := Nat.toDigits 10 n

/-- The call form: the operation's name, then the operands in parentheses, separated by commas (R72). -/
def callText (name : String) (operands : List (List Char)) : List Char :=
  name.toList ++ ['('] ++ [',', ' '].intercalate operands ++ [')']

/-- The operands of a command as text, in the source's order (R72). -/
def operandTexts : Instr → List (List Char)
  | .add lhs rhs => [regText lhs, regText rhs]
  | .sub lhs rhs => [regText lhs, regText rhs]
  | .mul lhs rhs temp zero => [regText lhs, regText rhs, regText temp, regText zero]
  | .div lhs rhs quotient temp zero =>
    [regText lhs, regText rhs, regText quotient, regText temp, regText zero]
  | .inc reg => [regText reg]
  | .dec reg => [regText reg]
  | .neg reg temp zero => [regText reg, regText temp, regText zero]
  | .shl reg count zero temp => [regText reg, natText count, regText zero, regText temp]
  | .shr reg count zero temp => [regText reg, natText count, regText zero, regText temp]
  | .sar reg count zero temp => [regText reg, natText count, regText zero, regText temp]
  | .rol reg count zero temp => [regText reg, natText count, regText zero, regText temp]
  | .ror reg count zero temp => [regText reg, natText count, regText zero, regText temp]
  | .cmp lhs rhs temp => [regText lhs, regText rhs, regText temp]
  | .mov dst src => [regText dst, regText src]
  | .ldi reg imm => [regText reg, natText imm.toNat]

/-- The textual form of a command (R72). -/
def instrText (i : Instr) : List Char := callText i.mnemonic (operandTexts i)

/-- A token of a line of text. -/
inductive Token where
  | name (cs : List Char)
  | openParen
  | closeParen
  | comma
deriving DecidableEq, Repr

/-- The token of the characters read so far (kept in reverse), if there are any. -/
def pendingName (cur : List Char) : List Token :=
  if cur.isEmpty then [] else [.name cur.reverse]

/-- The tokens of a line. `--` starts a comment (R73); blanks separate tokens (log 4). -/
def lexLine (cur : List Char) : List Char → List Token
  | [] => pendingName cur
  | '-' :: '-' :: _ => pendingName cur
  | c :: rest =>
    if c == '(' then pendingName cur ++ .openParen :: lexLine [] rest
    else if c == ')' then pendingName cur ++ .closeParen :: lexLine [] rest
    else if c == ',' then pendingName cur ++ .comma :: lexLine [] rest
    else if c == ' ' || c == '\t' then pendingName cur ++ lexLine [] rest
    else lexLine (c :: cur) rest

/-- The operands up to the closing parenthesis, which ends the command (R72). -/
def operandList : List Token → Option (List (List Char))
  | [.name a, .closeParen] => some [a]
  | .name a :: .comma :: rest => (operandList rest).map (a :: ·)
  | _ => none

/-- A register name (R73). -/
def parseReg (cs : List Char) : Option Reg := (List.finRange 16).find? fun r => regText r == cs

/-- The value of a digit, up to base 16. -/
def digitValue (c : Char) : Option Nat :=
  if '0' ≤ c ∧ c ≤ '9' then some (c.toNat - '0'.toNat)
  else if 'a' ≤ c ∧ c ≤ 'f' then some (c.toNat - 'a'.toNat + 10)
  else if 'A' ≤ c ∧ c ≤ 'F' then some (c.toNat - 'A'.toNat + 10)
  else none

/-- The numeral with value `acc` so far, continued by the digits of `base` that follow. -/
def numeralFrom (base acc : Nat) : List Char → Option Nat
  | [] => some acc
  | c :: rest =>
    match digitValue c with
    | some d => if d < base then numeralFrom base (acc * base + d) rest else none
    | none => none

/-- A numeral of one digit or more in `base`. -/
def numeral (base : Nat) (cs : List Char) : Option Nat :=
  match cs with
  | [] => none
  | _ :: _ => numeralFrom base 0 cs

/-- The integer of a count: a decimal or `0x` hexadecimal numeral (R73). -/
def countValue : List Char → Option Nat
  | '0' :: 'x' :: digits => numeral 16 digits
  | digits => numeral 10 digits

/-- A count not above 65535 (R73). -/
def parseCount (cs : List Char) : Option Nat :=
  match countValue cs with
  | some n => if n < 2 ^ Config.countWidth then some n else none
  | none => none

/-- The integer of an LDI literal: decimal with optional minus sign, or `0x` hexadecimal, or `0b` binary
(R73). -/
def literalValue : List Char → Option Int
  | '0' :: 'x' :: digits => (numeral 16 digits).map Int.ofNat
  | '0' :: 'b' :: digits => (numeral 2 digits).map Int.ofNat
  | '-' :: digits => (numeral 10 digits).map fun n => -(Int.ofNat n)
  | digits => (numeral 10 digits).map Int.ofNat

/-- An LDI literal in the range -32768..65535, as the 16-bit pattern it loads (R73, R65). -/
def parseLiteral (cs : List Char) : Option Word :=
  match literalValue cs with
  | some k => if -32768 ≤ k ∧ k ≤ 65535 then some (wordOfInt k) else none
  | none => none

/-- The command of a name and its operands (R72). There are no pseudo-instructions, labels, directives or
macros (R74): any other name is no command. -/
def parseCommand (name : List Char) (operands : List (List Char)) : Option Instr :=
  match String.ofList name, operands with
  | "ADD", [a, b] => return .add (← parseReg a) (← parseReg b)
  | "SUB", [a, b] => return .sub (← parseReg a) (← parseReg b)
  | "MUL", [a, b, c, d] => return .mul (← parseReg a) (← parseReg b) (← parseReg c) (← parseReg d)
  | "DIV", [a, b, c, d, e] =>
    return .div (← parseReg a) (← parseReg b) (← parseReg c) (← parseReg d) (← parseReg e)
  | "INC", [a] => return .inc (← parseReg a)
  | "DEC", [a] => return .dec (← parseReg a)
  | "NEG", [a, b, c] => return .neg (← parseReg a) (← parseReg b) (← parseReg c)
  | "SHL", [a, n, b, c] => return .shl (← parseReg a) (← parseCount n) (← parseReg b) (← parseReg c)
  | "SHR", [a, n, b, c] => return .shr (← parseReg a) (← parseCount n) (← parseReg b) (← parseReg c)
  | "SAR", [a, n, b, c] => return .sar (← parseReg a) (← parseCount n) (← parseReg b) (← parseReg c)
  | "ROL", [a, n, b, c] => return .rol (← parseReg a) (← parseCount n) (← parseReg b) (← parseReg c)
  | "ROR", [a, n, b, c] => return .ror (← parseReg a) (← parseCount n) (← parseReg b) (← parseReg c)
  | "CMP", [a, b, c] => return .cmp (← parseReg a) (← parseReg b) (← parseReg c)
  | "MOV", [a, b] => return .mov (← parseReg a) (← parseReg b)
  | "LDI", [a, k] => return .ldi (← parseReg a) (← parseLiteral k)
  | _, _ => none

/-- What a line of text is. -/
inductive AsmLine where
  | blank
  | command (i : Instr)
  | malformed
deriving DecidableEq, Repr

/-- Read one line: one command, or nothing but blanks or a comment, or neither (R73; that such a line is blank is a
DESIGN CHOICE, log 4; unsafe for text only). -/
def readLine (line : List Char) : AsmLine :=
  match lexLine [] line with
  | [] => .blank
  | .name m :: .openParen :: rest =>
    match (operandList rest).bind (parseCommand m) with
    | some i => .command i
    | none => .malformed
  | _ => .malformed

/-- The lines of a text; `cur` holds, in reverse, the line being read. -/
def splitLines (cur : List Char) : List Char → List (List Char)
  | [] => [cur.reverse]
  | c :: rest => if c == '\n' then cur.reverse :: splitLines [] rest else splitLines (c :: cur) rest

/-- The command words of a list of lines, if every line is a command or blank (R73: one command per line). -/
def assembleLines : List (List Char) → Option (List CmdWord)
  | [] => some []
  | line :: rest =>
    match readLine line with
    | .blank => assembleLines rest
    | .command i => (assembleLines rest).map (encode i :: ·)
    | .malformed => none

/-- The command words of a text. -/
def assemble (text : List Char) : Option (List CmdWord) := assembleLines (splitLines [] text)

end Sys2Proof.Machine
end

