-- ==== Sys2Proof/Safety.lean ====
section
/-!
DEFINITION. What counts as a command inside the documented domain (00_scope.md R12, 70_reset_and_hazards.md
R228), as a completed command and as a completed run (R222), in the terms the statements use.
-/

namespace Sys2Proof.Machine

/-- The state an outcome goes on with, if it does. -/
def stateOf : Result → Option State
  | .next s => some s
  | .fault _ => none
  | .refused _ => none

/-- The reason an outcome is refused for, if it is. -/
def refusalOf : Result → Option Refusal
  | .next _ => none
  | .fault _ => none
  | .refused r => some r

/-- The command is inside the documented domain in this state: its operands are distinct as R225 asks and
its `zero` operand holds zero (R226). -/
abbrev InDomain (i : Instr) (s : State) : Prop :=
  operandsDistinct i = true ∧ zeroOperandHolds i s = true

/-- `ZF = 1` with `SF = 1` is not the case: the combination no command produces (10_state.md R32). -/
abbrev FlagsConsistent (s : State) : Prop := ¬(s.flags.zf = true ∧ s.flags.sf = true)

/-- A run of `n` steps from `s` completes without a refusal (R12: a refusal is kept for the whole run). -/
abbrev RunCompletes (n : Nat) (s : State) : Prop :=
  ∃ t : State, Sys2Proof.core.run n s = Host.Outcome.next t

end Sys2Proof.Machine
end

