-- ==== Sys2Proof/Certificates/Slice0/Obligations.lean ====
section
/-!
DEFINITION. The statements for the provers. Each follows a rule of `spec/`; where a clause rests on a choice
that the spec marks as its own (`[decision: …]`, `[derived: …]`) the docstring names it.
-/

open Sys2Proof Sys2Proof.Machine

/-! ### Encoding and decoding -/

/-- R70: decoding the word of any command gives the command back. The encoding is the spec's own choice
(92_eei_decisions.md D4). -/
def Obligations.DecodeOfEncode : Prop :=
  ∀ i : Instr, i.WellFormed → decode (encode i) = .command i

/-- R70: a valid word is the word of the command it decodes to, and that command is well formed. The encoding
is the spec's own choice (D4, D6). -/
def Obligations.EncodeOfDecode : Prop :=
  ∀ (w : CmdWord) (i : Instr), decode w = .command i → i.WellFormed ∧ encode i = w

/-- R67: the words that decode to a command of some name are exactly the words that hit the row of that name
in the match and mask table (spec's own encoding, D4). -/
def Obligations.DecodeAgreesWithMatchTable : Prop :=
  ∀ (w : CmdWord) (row : MatchRow), row ∈ matchTable →
    (row.hits w = true ↔ ∃ i : Instr, decode w = .command i ∧ i.mnemonic = row.mnemonic)

/-- R69: the verdict is invalid exactly for the reserved opcode 0x0 and for a word of another opcode that hits
no row of the table, each under its own reason (spec's own choice, D6). -/
def Obligations.InvalidWordsAreTheReservedOnes : Prop :=
  ∀ w : CmdWord,
    (decode w = .invalid .reservedOpcode ↔ w.extractLsb' 28 4 = 0#4) ∧
    (decode w = .invalid .mustBeZeroBitSet ↔
      w.extractLsb' 28 4 ≠ 0#4 ∧ ∀ row ∈ matchTable, row.hits w = false)

/-- Words written out from the patterns of R67 decode to the commands they stand for (D4). -/
def Obligations.SampleWordsDecode : Prop :=
  decode 0b00010001001000000000000000000000#32 = .command (.add 1 2) ∧
  decode 0b01000001001000110100111100000000#32 = .command (.div 1 2 3 4 15) ∧
  decode 0b01010001000000000000000000000000#32 = .command (.inc 1) ∧
  decode 0b10000001111111100000000000000001#32 = .command (.shl 1 1 15 14) ∧
  decode 0b11000001111111100000000000010001#32 = .command (.ror 1 17 15 14) ∧
  decode 0b11010001001011100000000000000000#32 = .command (.cmp 1 2 14) ∧
  decode 0b11110011000000001111111111111110#32 = .command (.ldi 3 0xFFFE#16) ∧
  decode 0b00010001001000010000000000000000#32 = .invalid .mustBeZeroBitSet

/-! ### The step, reset and the host's inputs -/

/-- R43, R69: a step takes the next command word, and when it decodes to a command, runs exactly that command
on the state with the word taken; the word placed by `withFetchWord` is run the same way. That the words to
come are a list in the state is the model's choice (log 1). -/
def Obligations.StepRunsDecodedCommand : Prop :=
  (∀ (s : State) (w : CmdWord) (later : List HostInput) (i : Instr),
    s.port = .command w :: later → decode w = .command i →
    step s = exec i { s with port := later }) ∧
  (∀ (s : State) (w : CmdWord) (i : Instr), decode w = .command i →
    step (s.withFetchWord 32 w.toNat) = exec i s)

/-- R69: a word that encodes no command is refused as `InvalidCommandWord` (spec's own choice, D6). -/
def Obligations.StepRefusesInvalidWord : Prop :=
  ∀ (s : State) (w : CmdWord) (later : List HostInput) (why : InvalidWord),
    s.port = .command w :: later → decode w = .invalid why →
    step s = .refused .invalidCommandWord

/-- R46, R220: asserting reset puts every register at zero and every flag at 0, from any state. The reset
value of the flags is the spec's own choice (D8); that reset leaves the host's list alone is the model's
(log 1). -/
def Obligations.ResetInputClearsTheBlock : Prop :=
  ∀ (s : State) (later : List HostInput), s.port = .reset :: later →
    ∃ t : State, step s = .next t ∧ (∀ r : Reg, t.reg r = 0#16) ∧
      t.flags = ⟨false, false, false, false⟩ ∧ t.port = later

/-- A step with nothing presented changes nothing (the model's choice, log 2, from R24), and a step on which
two command streams present a word is refused as `ConcurrentUse` (R49, D24; the form is the model's, log 3). -/
def Obligations.IdleStepAndConcurrentUse : Prop :=
  (∀ s : State, s.port = [] → step s = .next s) ∧
  (∀ (s : State) (w₁ w₂ : CmdWord) (later : List HostInput),
    s.port = .concurrent w₁ w₂ :: later → step s = .refused .concurrentUse)

/-- R36: after reset every register holds the all-zero pattern. -/
def Obligations.ResetRegistersAreZero : Prop :=
  ∀ r : Reg, State.reset.reg r = 0#16

/-- R31: the flags after reset are 0, the spec's own choice (D8). The host's list starts empty, the model's
choice (log 1). -/
def Obligations.ResetFlagsAreClear : Prop :=
  State.reset.flags = ⟨false, false, false, false⟩ ∧ State.reset.port = []

/-- What a step does to the registers and the flags does not depend on the inputs that come later: R47, by which a
command sees no write of a later one. That the inputs to come are a list in the state, of which a step takes the
head and leaves the rest (the reset input too), is the model's choice (log 1), not R47's. -/
def Obligations.StepIgnoresLaterInputs : Prop :=
  ∀ (s t : State) (input : HostInput) (later later' : List HostInput),
    s.port = input :: later → step s = .next t →
    t.port = later ∧ step { s with port := input :: later' } = .next { t with port := later' }

/-! ### Gates, cells and chains -/

/-- R107: the complete truth table of the binary gates, rows (0,0), (0,1), (1,0), (1,1). -/
def Obligations.GateTruthTable : Prop :=
  [(false, false), (false, true), (true, false), (true, true)].map
      (fun p => [gateAnd p.1 p.2, gateOr p.1 p.2, gateXor p.1 p.2, gateNand p.1 p.2, gateNor p.1 p.2,
        gateXnor p.1 p.2]) =
    [[false, false, false, true, true, true],
     [false, true, true, true, false, false],
     [false, true, true, true, false, false],
     [true, true, false, false, false, true]]

/-- R108, R109, R110, R111: the equations of the four cells, their integer readings, and the full cells as half
cells. -/
def Obligations.CellEquations : Prop :=
  ∀ x y c : Bool,
    halfAdder x y = (x ^^ y, x && y) ∧
    2 * (halfAdder x y).2.toNat + (halfAdder x y).1.toNat = x.toNat + y.toNat ∧
    fullAdder x y c = (x ^^ y ^^ c, (x && y) || ((x ^^ y) && c)) ∧
    2 * (fullAdder x y c).2.toNat + (fullAdder x y c).1.toNat = x.toNat + y.toNat + c.toNat ∧
    fullAdder x y false = halfAdder x y ∧
    halfSubtractor x y = (x ^^ y, !x && y) ∧
    ((halfSubtractor x y).1.toNat : Int) - 2 * (halfSubtractor x y).2.toNat = x.toNat - y.toNat ∧
    fullSubtractor x y c = (x ^^ y ^^ c, (!x && y) || (!(x ^^ y) && c)) ∧
    ((fullSubtractor x y c).1.toNat : Int) - 2 * (fullSubtractor x y c).2.toNat =
      x.toNat - y.toNat - c.toNat ∧
    fullSubtractor x y false = halfSubtractor x y ∧
    fullSubtractor x false c = halfSubtractor x c

/-- R114 (derived by the spec from R109 and R113): the arithmetic meaning of the ripple-carry chain at every
width, and the three special cases the commands use. -/
def Obligations.RippleAddArithmetic : Prop :=
  ∀ (n : Nat) (a b : BitVec n),
    (∀ cin : Bool,
      (rippleAdd a b cin).1.toNat + 2 ^ n * (rippleAdd a b cin).2.toNat =
        a.toNat + b.toNat + cin.toNat) ∧
    rippleAdd a (~~~b) true = (a - b, decide (b.toNat ≤ a.toNat)) ∧
    (rippleAdd a 0#n true).1 = a + 1#n ∧
    rippleAdd a (BitVec.allOnes n) false = (a - 1#n, decide (a.toNat ≠ 0))

/-- R115 (derived by the spec from R109, R111, R113): the ripple-borrow chain computes the integer difference,
and is the inverted adder chain with the complementary carry. -/
def Obligations.RippleSubIsInvertedRippleAdd : Prop :=
  ∀ (n : Nat) (a b : BitVec n) (bin : Bool),
    rippleSub a b bin = ((rippleAdd a (~~~b) (!bin)).1, !(rippleAdd a (~~~b) (!bin)).2) ∧
    ((rippleSub a b bin).1.toNat : Int) - 2 ^ n * (rippleSub a b bin).2.toNat =
      a.toNat - b.toNat - bin.toNat

/-- R163 (derived by the spec from R109, R110): the chains of INC and DEC, which stop early, give what the full
chains give. -/
def Obligations.EarlyTerminationIsUnobservable : Prop :=
  ∀ (n : Nat) (r : BitVec n),
    incChain r n = rippleAdd r 0#n true ∧
    decChain r n =
      ((rippleAdd r (BitVec.allOnes n) false).1, !(rippleAdd r (BitVec.allOnes n) false).2)

/-! ### What each command does: its own effect, complete, from hypotheses on the state and operands alone -/

/-- R140: ADD, for every pair of registers, `lhs == rhs` included (that case is the spec's own choice, D10, by
R224). -/
def Obligations.AddCompletes : Prop :=
  ∀ (lhs rhs : Reg) (s : State),
    let A := s.reg lhs
    let B := s.reg rhs
    let v := A + B
    exec (.add lhs rhs) s = .next ((s.setReg lhs v).setFlags
      { cf := decide (2 ^ 16 ≤ A.toNat + B.toNat)
        zf := decide (v = 0#16)
        sf := v.msb
        of := decide (A.msb = B.msb ∧ v.msb ≠ A.msb) })

/-- R141: SUB, for every pair of registers, `lhs == rhs` included (D10, by R224). -/
def Obligations.SubCompletes : Prop :=
  ∀ (lhs rhs : Reg) (s : State),
    let A := s.reg lhs
    let B := s.reg rhs
    let v := A - B
    exec (.sub lhs rhs) s = .next ((s.setReg lhs v).setFlags
      { cf := decide (A.toNat < B.toNat)
        zf := decide (v = 0#16)
        sf := v.msb
        of := decide (A.msb ≠ B.msb ∧ v.msb ≠ A.msb) })

/-- R190: CMP writes the difference to `temp` and SUB's flags, and leaves `lhs` and `rhs` alone; with `temp`
equal to `lhs` or `rhs` it is refused (that refusal is the spec's own choice, D11). -/
def Obligations.CmpCompletes : Prop :=
  ∀ (lhs rhs temp : Reg) (s : State),
    let A := s.reg lhs
    let B := s.reg rhs
    let v := A - B
    (temp ≠ lhs ∧ temp ≠ rhs →
      exec (.cmp lhs rhs temp) s = .next ((s.setReg temp v).setFlags
        { cf := decide (A.toNat < B.toNat)
          zf := decide (A = B)
          sf := v.msb
          of := decide (A.msb ≠ B.msb ∧ v.msb ≠ A.msb) })) ∧
    (temp = lhs ∨ temp = rhs → exec (.cmp lhs rhs temp) s = .refused .operandAlias)

/-- R160: INC adds one, leaves CF as it was, and sets OF exactly when the MSB goes from 0 to 1. -/
def Obligations.IncCompletes : Prop :=
  ∀ (reg : Reg) (s : State),
    let R := s.reg reg
    let v := R + 1#16
    exec (.inc reg) s = .next ((s.setReg reg v).setFlags
      { cf := s.flags.cf
        zf := decide (v = 0#16)
        sf := v.msb
        of := decide (R.msb = false ∧ v.msb = true) })

/-- R161: DEC subtracts one, leaves CF as it was, and sets OF exactly when the MSB goes from 1 to 0. That the
chain subtracts one is the spec's resolution of a conflict (90_conflicts.md C1, D19). -/
def Obligations.DecCompletes : Prop :=
  ∀ (reg : Reg) (s : State),
    let R := s.reg reg
    let v := R - 1#16
    exec (.dec reg) s = .next ((s.setReg reg v).setFlags
      { cf := s.flags.cf
        zf := decide (v = 0#16)
        sf := v.msb
        of := decide (R.msb = true ∧ v.msb = false) })

/-- R162: NEG writes the two's-complement negation to `reg` and to `temp`; CF is 1 for every operand but zero
and OF exactly for the minimum. The content of `temp` (D13) and OF (C2, D20) are the spec's own choices. -/
def Obligations.NegCompletes : Prop :=
  ∀ (reg temp zero : Reg) (s : State),
    temp ≠ reg → temp ≠ zero → zero ≠ reg → s.reg zero = 0#16 →
    let R := s.reg reg
    let v := -R
    exec (.neg reg temp zero) s = .next (((s.setReg reg v).setReg temp v).setFlags
      { cf := decide (R ≠ 0#16)
        zf := decide (R = 0#16)
        sf := v.msb
        of := decide (R = 0x8000#16) })

/-- R150, R151: MUL's shift-and-add loop leaves the low 16 bits of the product in `lhs` and zero in `temp`; the
flags are those of the last internal shift, CF = OF = bit 0 of the multiplicand, ZF = 1, SF = 0 (D13, D17,
the spec's own choices, and R151 its derivation). `rhs` may be `lhs` or `zero`. -/
def Obligations.MulCompletes : Prop :=
  ∀ (lhs rhs temp zero : Reg) (s : State),
    temp ≠ lhs → temp ≠ rhs → temp ≠ zero → zero ≠ lhs → s.reg zero = 0#16 →
    exec (.mul lhs rhs temp zero) s =
      .next (((s.setReg lhs (s.reg lhs * s.reg rhs)).setReg temp 0#16).setFlags
        { cf := (s.reg lhs).getLsbD 0
          zf := true
          sf := false
          of := (s.reg lhs).getLsbD 0 })

/-- R152, R154: DIV by a divisor that is not zero: the unsigned quotient in `lhs` and `quotient`, the unsigned
remainder in `temp`, ZF and SF of the quotient, CF and OF cleared. The scratch contents (D13) and the operands
with the MSB set (D18) are the spec's own choices. -/
def Obligations.DivCompletes : Prop :=
  ∀ (lhs rhs quotient temp zero : Reg) (s : State),
    quotient ∉ [lhs, rhs, temp, zero] → temp ∉ [lhs, rhs, zero] → zero ≠ lhs → s.reg zero = 0#16 →
    s.reg rhs ≠ 0#16 →
    let q := BitVec.ofNat 16 ((s.reg lhs).toNat / (s.reg rhs).toNat)
    let w := BitVec.ofNat 16 ((s.reg lhs).toNat % (s.reg rhs).toNat)
    exec (.div lhs rhs quotient temp zero) s =
      .next ((((s.setReg lhs q).setReg quotient q).setReg temp w).setFlags
        { cf := false
          zf := decide ((s.reg lhs).toNat < (s.reg rhs).toNat)
          sf := q.msb
          of := false })

/-- R153, R201: DIV by zero completes, zeroes `lhs` and sets CF, ZF, OF with SF clear; `quotient` and `temp` keep
their values (D13, the spec's own choice). -/
def Obligations.DivByZeroCompletes : Prop :=
  ∀ (lhs rhs quotient temp zero : Reg) (s : State),
    quotient ∉ [lhs, rhs, temp, zero] → temp ∉ [lhs, rhs, zero] → zero ≠ lhs → s.reg zero = 0#16 →
    s.reg rhs = 0#16 →
    exec (.div lhs rhs quotient temp zero) s =
      .next ((s.setReg lhs 0#16).setFlags ⟨true, true, false, true⟩)

/-- R170, R171: SHL. The count saturates at 16; CF is the last bit out of the MSB; OF is computed at count 1
only. CF and OF at count 0 (D14), OF above count 1 (D15) and `temp` (D13) are the spec's own choices. -/
def Obligations.ShlCompletes : Prop :=
  ∀ (reg : Reg) (count : Nat) (zero temp : Reg) (s : State),
    temp ≠ reg → temp ≠ zero → zero ≠ reg → s.reg zero = 0#16 →
    let R := s.reg reg
    let n := min count 16
    let v := R <<< n
    let out := decide (1 ≤ n) && R.getLsbD (16 - n)
    exec (.shl reg count zero temp) s = .next (((s.setReg reg v).setReg temp v).setFlags
      { cf := out
        zf := decide (v = 0#16)
        sf := v.msb
        of := if count = 1 then v.msb ^^ out else false })

/-- R170, R172: SHR. CF is the last bit out of bit 0; OF is 0. CF at count 0 (D14), OF above count 1 (D15) and
`temp` (D13) are the spec's own choices. -/
def Obligations.ShrCompletes : Prop :=
  ∀ (reg : Reg) (count : Nat) (zero temp : Reg) (s : State),
    temp ≠ reg → temp ≠ zero → zero ≠ reg → s.reg zero = 0#16 →
    let R := s.reg reg
    let n := min count 16
    let v := R >>> n
    exec (.shr reg count zero temp) s = .next (((s.setReg reg v).setReg temp v).setFlags
      { cf := decide (1 ≤ n) && R.getLsbD (n - 1)
        zf := decide (v = 0#16)
        sf := v.msb
        of := false })

/-- R170, R173: SAR fills with the original sign bit and keeps the sign. CF is the last bit out of bit 0; OF is
0. CF at count 0 (D14), OF above count 1 (D15) and `temp` (D13) are the spec's own choices. -/
def Obligations.SarCompletes : Prop :=
  ∀ (reg : Reg) (count : Nat) (zero temp : Reg) (s : State),
    temp ≠ reg → temp ≠ zero → zero ≠ reg → s.reg zero = 0#16 →
    let R := s.reg reg
    let n := min count 16
    let v := R.sshiftRight n
    exec (.sar reg count zero temp) s = .next (((s.setReg reg v).setReg temp v).setFlags
      { cf := decide (1 ≤ n) && R.getLsbD (n - 1)
        zf := decide (v = 0#16)
        sf := R.msb
        of := false })

/-- R180, R182: ROL rotates by the count modulo 16; CF is the last bit rotated out; OF is computed for a net
rotation of 1 only. CF and OF at a net rotation of 0 (D16), OF above 1 (D15) and `temp` (D13) are the spec's own
choices. -/
def Obligations.RolCompletes : Prop :=
  ∀ (reg : Reg) (count : Nat) (zero temp : Reg) (s : State),
    temp ≠ reg → temp ≠ zero → zero ≠ reg → s.reg zero = 0#16 →
    let R := s.reg reg
    let k := count % 16
    let v := R.rotateLeft k
    let out := decide (1 ≤ k) && R.getLsbD (16 - k)
    exec (.rol reg count zero temp) s = .next (((s.setReg reg v).setReg temp v).setFlags
      { cf := out
        zf := decide (R = 0#16)
        sf := v.msb
        of := if k = 1 then v.msb ^^ out else false })

/-- R181, R182: ROR rotates by the count modulo 16; CF is the last bit rotated out; for a net rotation of 1, OF is
the xor of the new top two bits. CF and OF at a net rotation of 0 (D16), OF above 1 (D15) and `temp` (D13) are the
spec's own choices. -/
def Obligations.RorCompletes : Prop :=
  ∀ (reg : Reg) (count : Nat) (zero temp : Reg) (s : State),
    temp ≠ reg → temp ≠ zero → zero ≠ reg → s.reg zero = 0#16 →
    let R := s.reg reg
    let k := count % 16
    let v := R.rotateRight k
    exec (.ror reg count zero temp) s = .next (((s.setReg reg v).setReg temp v).setFlags
      { cf := decide (1 ≤ k) && R.getLsbD (k - 1)
        zf := decide (R = 0#16)
        sf := v.msb
        of := if k = 1 then v.getLsbD 15 ^^ v.getLsbD 14 else false })

/-- R128: MOV copies every bit of `src` to `dst`, changes no other register and writes no flag (the command is
the spec's own name for the source's copy, D7). The frame takes in `State.port`, the model's own field (log 1). -/
def Obligations.MovCompletes : Prop :=
  ∀ (dst src : Reg) (s : State), ∃ t : State,
    exec (.mov dst src) s = .next t ∧ t.reg dst = s.reg src ∧
      (∀ r : Reg, r ≠ dst → t.reg r = s.reg r) ∧ t.flags = s.flags ∧ t.port = s.port

/-- R129: LDI loads its 16-bit pattern, changes no other register and writes no flag (the command is the
spec's own name for the source's load, D7). The frame takes in `State.port`, the model's own field (log 1). -/
def Obligations.LdiCompletes : Prop :=
  ∀ (reg : Reg) (imm : Word) (s : State), ∃ t : State,
    exec (.ldi reg imm) s = .next t ∧ t.reg reg = imm ∧
      (∀ r : Reg, r ≠ reg → t.reg r = s.reg r) ∧ t.flags = s.flags ∧ t.port = s.port

/-! ### Operand rules, refusals and frames, over every command -/

/-- R228: in the domain every command completes; out of it, it is refused, `OperandAlias` before
`ZeroOperandNotZero`, and for no other reason. The domain is the spec's own choice (D11, D12). -/
def Obligations.RefusalsAreExactlyTheListed : Prop :=
  ∀ (i : Instr) (s : State),
    (InDomain i s → ∃ t : State, exec i s = .next t) ∧
    (operandsDistinct i = false → exec i s = .refused .operandAlias) ∧
    (operandsDistinct i = true → zeroOperandHolds i s = false →
      exec i s = .refused .zeroOperandNotZero)

/-- R225: the table of distinct operands is the discipline of its three points: the written registers are
pairwise distinct, each scratch operand differs from every other register operand, and the `zero` operand from
every written register (the spec's own choice, D11). -/
def Obligations.DistinctnessTableIsTheDiscipline : Prop :=
  ∀ i : Instr, operandsDistinct i = true ↔
    (writtenRegs i).Nodup ∧ (∀ p ∈ scratchPairs i, p.1 ∉ p.2) ∧
      (∀ z : Reg, zeroOperand i = some z → z ∉ writtenRegs i)

/-- R21, R23: a command that completes changes no register but those it writes. That it takes nothing from the
host's list says something of `State.port`, the model's own field (log 1), which no rule names. -/
def Obligations.OnlyWrittenRegistersChange : Prop :=
  ∀ (i : Instr) (s t : State), exec i s = .next t →
    (∀ r : Reg, r ∉ writtenRegs i → t.reg r = s.reg r) ∧ t.port = s.port

/-- R226: a command that completes leaves its `zero` operand holding zero (D12, the spec's own choice). -/
def Obligations.ZeroOperandIsKept : Prop :=
  ∀ (i : Instr) (s t : State) (z : Reg), exec i s = .next t → zeroOperand i = some z →
    t.reg z = 0#16

/-- R28, R29: no command reads a flag. Started with any flags `f`, a command that completes gives the same
registers, and leaves of `f` what R28 says it leaves: all four under MOV and LDI, CF under INC and DEC, nothing
under every other command. (With `f` the flags it had: those are kept.) -/
def Obligations.NoCommandReadsAFlag : Prop :=
  ∀ (i : Instr) (s t : State) (f : Flags), exec i s = .next t →
    exec i (s.setFlags f) = .next (t.setFlags (flagsAfter i f t.flags))

/-- R23: a command's outcome depends only on the registers it reads. From two states that agree on these, it
leaves the same flags, and in each register it writes either the same value or, in both, the value found there
(DIV by zero keeps its scratch registers, R153). -/
def Obligations.OnlyReadRegistersMatter : Prop :=
  ∀ (i : Instr) (s s' t : State), (∀ r ∈ readRegs i, s.reg r = s'.reg r) → s.flags = s'.flags →
    exec i s = .next t → ∃ t' : State, exec i s' = .next t' ∧ t'.flags = t.flags ∧
      ∀ r ∈ writtenRegs i, t'.reg r = t.reg r ∨ (t.reg r = s.reg r ∧ t'.reg r = s'.reg r)

/-- R142: after every flagged operation but MUL, ZF and SF are functions of the final content of the
destination alone. -/
def Obligations.ZeroAndSignDescribeTheDestination : Prop :=
  ∀ (i : Instr) (s t : State) (d : Reg), exec i s = .next t → flaggedDestination i = some d →
    t.flags.zf = decide (t.reg d = 0#16) ∧ t.flags.sf = (t.reg d).getLsbD 15 ∧
      (t.flags.zf = true → t.flags.sf = false)

/-- R32: ZF = 1 with SF = 1 is never produced: every step, whatever the host presents, keeps the flags free of
it. -/
def Obligations.EveryStepKeepsFlagsConsistent : Prop :=
  ∀ s t : State, FlagsConsistent s → step s = .next t → FlagsConsistent t

/-- The state after reset is free of ZF = 1 with SF = 1 (R31, R32; the reset flags are the spec's own choice,
D8). -/
def Obligations.ResetFlagsConsistent : Prop := FlagsConsistent State.reset

/-! ### Laws of the commands -/

/-- R152, R112: R152's loop of repeated subtraction on the full-adder chain gives the quotient and remainder
that DIV answers, for every dividend and every divisor but zero. -/
def Obligations.DivIsRepeatedSubtraction : Prop :=
  ∀ a b : Word, b ≠ 0#16 →
    repeatedSubtraction a b = divWords a b ∧
    (divWords a b).1.toNat = a.toNat / b.toNat ∧ (divWords a b).2.toNat = a.toNat % b.toNat

/-- R227 item 1, R153, R201: after a DIV that completes, `CF & OF` says whether the divisor was zero. -/
def Obligations.DivisionByZeroIsCarryAndOverflow : Prop :=
  ∀ (lhs rhs quotient temp zero : Reg) (s t : State),
    exec (.div lhs rhs quotient temp zero) s = .next t →
    (t.flags.cf && t.flags.of) = decide (s.reg rhs = 0#16)

/-- R140, R141, corner cases: OF of ADD and SUB is the signed overflow. -/
def Obligations.OverflowIsSignedOverflow : Prop :=
  ∀ a b : Word,
    (addWords a b).2.of = decide (a.toInt + b.toInt < -32768 ∨ 32767 < a.toInt + b.toInt) ∧
    (subWords a b).2.of = decide (a.toInt - b.toInt < -32768 ∨ 32767 < a.toInt - b.toInt)

/-- R190, the readings of the flags after CMP (derived by the spec): equal, unsigned below, signed less. -/
def Obligations.CmpFlagsOrderTheOperands : Prop :=
  ∀ (lhs rhs temp : Reg) (s t : State), exec (.cmp lhs rhs temp) s = .next t →
    (t.flags.zf = true ↔ s.reg lhs = s.reg rhs) ∧
    (t.flags.cf = true ↔ (s.reg lhs).toNat < (s.reg rhs).toNat) ∧
    (t.flags.sf ≠ t.flags.of ↔ (s.reg lhs).toInt < (s.reg rhs).toInt)

/-- R191 (derived by the spec from R190): the internal CMP against zero gives the value back, with ZF and SF of
the value and CF = OF = 0, at every width. -/
def Obligations.InternalCompareRefreshesZeroAndSign : Prop :=
  ∀ (n : Nat) (v : BitVec n),
    subWords v 0#n = (v, { cf := false, zf := decide (v = 0#n), sf := v.msb, of := false })

/-- R162: NEG's value and four flags are exactly those of `SUB(zero, reg)` (OF is the spec's own choice, C2,
D20). -/
def Obligations.NegIsSubtractionFromZero : Prop :=
  ∀ r : Word, (negWord r, negFlags r (negWord r)) = subWords 0#16 r

/-- R143 item 1: ADD and then SUB of the same register, another than `lhs`, restores `lhs`. -/
def Obligations.AddThenSubRestores : Prop :=
  ∀ (lhs rhs : Reg) (s : State), lhs ≠ rhs →
    ∃ t u : State, exec (.add lhs rhs) s = .next t ∧ exec (.sub lhs rhs) t = .next u ∧
      u.reg lhs = s.reg lhs

/-- R143 item 2: addition gives identical results and identical flags with its operands exchanged, at every
width. -/
def Obligations.AddIsCommutative : Prop :=
  ∀ (n : Nat) (a b : BitVec n), addWords a b = addWords b a

/-- R164 item 1: INC and then DEC restores the register and leaves CF as before. -/
def Obligations.IncThenDecRestores : Prop :=
  ∀ (reg : Reg) (s : State),
    ∃ t u : State, exec (.inc reg) s = .next t ∧ exec (.dec reg) t = .next u ∧
      u.reg reg = s.reg reg ∧ u.flags.cf = s.flags.cf

/-- R164 item 2 (with 90_conflicts.md C5): NEG twice restores the register, the minimum included. -/
def Obligations.NegTwiceRestores : Prop :=
  ∀ (reg temp zero : Reg) (s : State),
    temp ≠ reg → temp ≠ zero → zero ≠ reg → s.reg zero = 0#16 →
    ∃ t u : State, exec (.neg reg temp zero) s = .next t ∧ exec (.neg reg temp zero) t = .next u ∧
      u.reg reg = s.reg reg

/-- R183: ROL and then ROR by the same count restores the register, and ROR and then ROL too. -/
def Obligations.RotateBackRestores : Prop :=
  ∀ (reg : Reg) (count : Nat) (zero temp : Reg) (s : State),
    temp ≠ reg → temp ≠ zero → zero ≠ reg → s.reg zero = 0#16 →
    (∃ t u : State, exec (.rol reg count zero temp) s = .next t ∧
      exec (.ror reg count zero temp) t = .next u ∧ u.reg reg = s.reg reg) ∧
    (∃ t u : State, exec (.ror reg count zero temp) s = .next t ∧
      exec (.rol reg count zero temp) t = .next u ∧ u.reg reg = s.reg reg)

/-- R170 item 1, R183: every shift count of 16 or more acts as 16, and a rotate by `count + 16` as one by
`count`, for the registers and for every flag. -/
def Obligations.CountsSaturateAndReduce : Prop :=
  ∀ (reg : Reg) (count : Nat) (zero temp : Reg) (s : State),
    (16 ≤ count →
      exec (.shl reg count zero temp) s = exec (.shl reg 16 zero temp) s ∧
      exec (.shr reg count zero temp) s = exec (.shr reg 16 zero temp) s ∧
      exec (.sar reg count zero temp) s = exec (.sar reg 16 zero temp) s) ∧
    exec (.rol reg (count + 16) zero temp) s = exec (.rol reg count zero temp) s ∧
    exec (.ror reg (count + 16) zero temp) s = exec (.ror reg count zero temp) s

/-- R174: a shift by one more, up to the width, is the shift followed by a shift by one, as far as the value and
the bit shifted out go, at every width. -/
def Obligations.ShiftsCompose : Prop :=
  ∀ (n : Nat) (v : BitVec n) (count : Nat), count < n →
    shlWord v (count + 1) = shlWord (shlWord v count).1 1 ∧
    shrWord v (count + 1) = shrWord (shrWord v count).1 1 ∧
    sarWord v (count + 1) = sarWord (sarWord v count).1 1

/-! ### Host-side functions -/

/-- R32, R45: the packed flags, bit 0 CF, bit 1 ZF, bit 2 SF, bit 3 OF (the layout is the spec's own choice,
D9), and R44: the register read port returns all 16 bits. -/
def Obligations.ReadPortsReturnTheState : Prop :=
  ∀ s : State,
    s.readFlags.getLsbD 0 = s.flags.cf ∧ s.readFlags.getLsbD 1 = s.flags.zf ∧
    s.readFlags.getLsbD 2 = s.flags.sf ∧ s.readFlags.getLsbD 3 = s.flags.of ∧
    ∀ r : Reg, s.readReg r = s.reg r

/-- R122, R123, R124: the integer readings into a width of 16 or more keep the value, unsigned and signed (sign
extension above bit 15 is the spec's own reading, 91_not_in_source.md N9). R124 puts a narrower width outside the
interface and says no more; that the functions then answer `none` is the model's choice (log 10). -/
def Obligations.IntegerReadingsKeepTheValue : Prop :=
  ∀ (m : Nat) (v : Word),
    (16 ≤ m → ∃ u z : BitVec m, toUnsigned m v = some u ∧ u.toNat = v.toNat ∧
      toSigned m v = some z ∧ z.toInt = v.toInt) ∧
    (m < 16 → toUnsigned m v = none ∧ toSigned m v = none)

/-- R120, R121, R42: a bit index in range is read and written as its own bit alone; an index out of range is
refused (R42, the spec's own choice D23), with the answer `none`. -/
def Obligations.BitAccessIsLocal : Prop :=
  ∀ (v : Word) (i : Nat) (b : Bool),
    (i < 16 → readBit v i = some (v.getLsbD i) ∧
      ∃ u : Word, writeBit v i b = some u ∧
        ∀ j < 16, u.getLsbD j = if j = i then b else v.getLsbD j) ∧
    (16 ≤ i → readBit v i = none ∧ writeBit v i b = none)

/-- R72, R73: reading the text printed for a command gives the command back (the syntax is the spec's own choice,
D22). That the printer writes every numeral in decimal, an LDI literal as its unsigned value, and a blank after each
comma, and that the reader skips blanks, are the model's choices (log 4). -/
def Obligations.ReadLineOfInstrText : Prop :=
  ∀ i : Instr, i.WellFormed → readLine (instrText i) = .command i

/-- R65, R73, R74: sample lines. The literals -1, 65535 and 0xFFFF are one command; a count above 65535, an unknown
name and a second command on the line are no command (the spec's own choices, D22, D26). That a line of nothing but a
comment is blank, and that blanks between tokens are skipped, are the model's choices (log 4). -/
def Obligations.SampleLinesAssemble : Prop :=
  readLine "LDI(r1, -1)".toList = .command (.ldi 1 0xFFFF#16) ∧
  readLine "LDI(r1, 65535)".toList = .command (.ldi 1 0xFFFF#16) ∧
  readLine "LDI(r1, 0xFFFF) -- all ones".toList = .command (.ldi 1 0xFFFF#16) ∧
  readLine "-- a comment".toList = .blank ∧
  readLine "SHL(r1, 65536, r15, r14)".toList = .malformed ∧
  readLine "CLR(r1)".toList = .malformed ∧
  readLine "INC(r1) INC(r1)".toList = .malformed
end

