-- ==== Sys2Proof/Laws/Cells.lean ====
section
/-!
SUPPORT. The bit-level facts of the cells and chains, the moves and the internal comparison: what each shared
data-path operation answers, so that later proofs do not unfold it. The arithmetic meaning of the chains
(40_bit_primitives.md R114, R115, R163) is left to the obligations.
-/

namespace Sys2Proof.Machine

/-- A placed bit is read back at its index, and every other bit is as it was. -/
theorem getLsbD_placeBit {n : Nat} (v : BitVec n) (i j : Nat) (b : Bool) (hj : j < n) :
    (placeBit v i b).getLsbD j = if j = i then b else v.getLsbD j := by
  by_cases h : j = i
  · subst h
    cases b <;> simp [placeBit, hj]
  · cases b <;> simp [placeBit, h, hj]

@[simp] theorem fullAdder_eq (x y c : Bool) :
    fullAdder x y c = (x ^^ y ^^ c, Bool.atLeastTwo x y c) := by
  revert x y c; decide

@[simp] theorem halfAdder_eq (x y : Bool) : halfAdder x y = (x ^^ y, x && y) := rfl

@[simp] theorem halfSubtractor_eq (x y : Bool) : halfSubtractor x y = (x ^^ y, !x && y) := rfl

@[simp] theorem fullSubtractor_eq (x y b : Bool) :
    fullSubtractor x y b = (x ^^ y ^^ b, (!x && y) || (!(x ^^ y) && b)) := rfl

/-- The carry into cell `k` of the adder chain is the carry of the addition of the low `k` bits. -/
theorem adderChain_carry {n : Nat} (a b : BitVec n) (cin : Bool) (k : Nat) :
    (adderChain a b cin k).2 = BitVec.carry k a b cin := by
  induction k with
  | zero => simp [adderChain, BitVec.carry_zero]
  | succ k ih => simp [adderChain, BitVec.carry_succ, ih]

/-- The sum bits of the adder chain after `k` cells. -/
theorem adderChain_bit {n : Nat} (a b : BitVec n) (cin : Bool) (k j : Nat) (hj : j < n) :
    (adderChain a b cin k).1.getLsbD j =
      (decide (j < k) && (a.getLsbD j ^^ (b.getLsbD j ^^ BitVec.carry j a b cin))) := by
  induction k with
  | zero => simp [adderChain]
  | succ k ih =>
    simp only [adderChain, fullAdder_eq, getLsbD_placeBit _ _ _ _ hj, ih, adderChain_carry]
    by_cases h : j = k
    · simp [h]
    · have : j < k + 1 ↔ j < k := by omega
      simp [h, this]

/-- The sum bits of `rippleAdd`: each cell's FULL_ADDER sum (R113). -/
theorem rippleAdd_bit {n : Nat} (a b : BitVec n) (cin : Bool) (j : Nat) (hj : j < n) :
    (rippleAdd a b cin).1.getLsbD j = (a.getLsbD j ^^ (b.getLsbD j ^^ BitVec.carry j a b cin)) := by
  rw [rippleAdd, adderChain_bit a b cin n j hj]
  simp [hj]

/-- The carry out of `rippleAdd` is the carry out of the MSB (R113). -/
theorem rippleAdd_carryOut {n : Nat} (a b : BitVec n) (cin : Bool) :
    (rippleAdd a b cin).2 = BitVec.carry n a b cin := adderChain_carry a b cin n

/-- What `addWords` answers: the chain's sum, with ADD's flags of it (R140). -/
theorem addWords_eq {n : Nat} (a b : BitVec n) :
    addWords a b = ((rippleAdd a b false).1,
      addFlags a b (rippleAdd a b false).1 (rippleAdd a b false).2) := rfl

/-- What `subWords` answers: the chain's difference, with SUB's flags of it (R141). -/
theorem subWords_eq {n : Nat} (a b : BitVec n) :
    subWords a b = ((rippleAdd a (~~~b) true).1,
      subFlags a b (rippleAdd a (~~~b) true).1 (rippleAdd a (~~~b) true).2) := rfl

@[simp] theorem isZero_eq {n : Nat} (v : BitVec n) : isZero v = (v == 0#n) := rfl

@[simp] theorem moveSteps_zero {n : Nat} (move : Moved n → Moved n) (v : BitVec n) :
    moveSteps move 0 v = (v, false) := rfl

/-- One more move comes after the moves so far. -/
theorem moveSteps_succ {n : Nat} (move : Moved n → Moved n) (k : Nat) (v : BitVec n) :
    moveSteps move (k + 1) v = move (moveSteps move k v) := by
  simp [moveSteps, Function.iterate_succ_apply']

/-- Register equality says that the two patterns are one (41_register_ops.md R126). -/
theorem wordsEqual_iff {n : Nat} (v w : BitVec n) : wordsEqual v w = true ↔ v = w := by
  simp only [wordsEqual, gateXnor, gateNot, gateXor, List.all_eq_true, List.mem_range]
  constructor
  · intro h
    refine BitVec.eq_of_getLsbD_eq fun i hi => ?_
    simpa using h i hi
  · rintro rfl i _
    simp

end Sys2Proof.Machine
end

