-- ==== Sys2Proof/Laws/State.lean ====
section
/-!
SUPPORT. The small lemmas of the state's updates and of the shared operations that take a step: one lemma per
field per update, the frame of a register write, what `guarded`, `finishMove` and `takeInput` can do, and the
cases of a step. Later proofs cite these and unfold none of them.
-/

namespace Sys2Proof.Machine

variable (s t : State) (r q : Reg) (v w : Word) (f : Flags)

@[simp] theorem setReg_flags : (s.setReg r v).flags = s.flags := rfl
@[simp] theorem setReg_port : (s.setReg r v).port = s.port := rfl
@[simp] theorem setFlags_regs : (s.setFlags f).regs = s.regs := rfl
@[simp] theorem setFlags_flags : (s.setFlags f).flags = f := rfl
@[simp] theorem setFlags_port : (s.setFlags f).port = s.port := rfl
@[simp] theorem setFlags_reg : (s.setFlags f).reg r = s.reg r := rfl
@[simp] theorem setPort_reg (p : List HostInput) : ({ s with port := p } : State).reg r = s.reg r := rfl

/-- A written register reads as the value written. -/
@[simp] theorem reg_setReg_self : (s.setReg r v).reg r = v := by
  simp [State.reg, State.setReg]

/-- A write to one register changes no other register (10_state.md R21). -/
theorem reg_setReg_of_ne {q r : Reg} (h : q ≠ r) : (s.setReg r v).reg q = s.reg q := by
  have : r.val ≠ q.val := fun e => h (Fin.ext e.symm)
  simp [State.reg, State.setReg, this]

/-- Reading after writing, in one equation. -/
theorem reg_setReg : (s.setReg r v).reg q = if q = r then v else s.reg q := by
  split
  · subst_vars; simp
  · exact reg_setReg_of_ne s v ‹_›

@[simp] theorem reset_reg : State.reset.reg r = 0#16 := by
  simp [State.reg, State.reset]

@[simp] theorem reset_flags : State.reset.flags = ⟨false, false, false, false⟩ := by decide
@[simp] theorem reset_port : State.reset.port = [] := rfl

@[simp] theorem applyReset_reg : s.applyReset.reg r = 0#16 := reset_reg r
@[simp] theorem applyReset_flags : s.applyReset.flags = ⟨false, false, false, false⟩ := reset_flags
@[simp] theorem applyReset_port : s.applyReset.port = s.port := rfl

@[simp] theorem presentNext_port (c : CmdWord) : (s.presentNext c).port = .command c :: s.port := rfl
@[simp] theorem presentNext_reg (c : CmdWord) : (s.presentNext c).reg r = s.reg r := rfl
@[simp] theorem presentNext_flags (c : CmdWord) : (s.presentNext c).flags = s.flags := rfl

@[simp] theorem readReg_eq : s.readReg r = s.reg r := rfl

/-- Two states with the same registers, flags and inputs are one. -/
theorem state_ext (hr : ∀ r, s.reg r = t.reg r) (hf : s.flags = t.flags) (hp : s.port = t.port) : s = t := by
  obtain ⟨sr, sf, sp⟩ := s
  obtain ⟨tr, tf, tp⟩ := t
  have : sr = tr := by
    apply Vector.ext
    intro i hi
    exact hr ⟨i, hi⟩
  simp_all

theorem takeInput_nil (h : s.port = []) : s.takeInput = none := by
  simp [State.takeInput, h]

theorem takeInput_cons {input : HostInput} {later : List HostInput} (h : s.port = input :: later) :
    s.takeInput = some (input, { s with port := later }) := by
  simp [State.takeInput, h]

/-- What the domain checks can answer: the effect, when both hold (70_reset_and_hazards.md R228). -/
theorem guarded_eq_next {i : Instr} {s t e : State} :
    guarded i s e = .next t ↔ operandsDistinct i = true ∧ zeroOperandHolds i s = true ∧ e = t := by
  cases hd : operandsDistinct i <;> cases hz : zeroOperandHolds i s <;> simp [guarded, hd, hz]

/-- The domain checks pass the effect on when both hold. -/
theorem guarded_of_inDomain {i : Instr} {s e : State} (hd : operandsDistinct i = true)
    (hz : zeroOperandHolds i s = true) : guarded i s e = .next e := by
  simp [guarded, hd, hz]

/-- What the domain checks can refuse, and when. -/
theorem guarded_eq_refused {i : Instr} {s e : State} {why : Refusal} :
    guarded i s e = .refused why ↔
      (operandsDistinct i = false ∧ why = .operandAlias) ∨
      (operandsDistinct i = true ∧ zeroOperandHolds i s = false ∧ why = .zeroOperandNotZero) := by
  cases hd : operandsDistinct i <;> cases hz : zeroOperandHolds i s <;>
    simp [guarded, hd, hz, eq_comm]

/-- Everything a step can do. -/
theorem step_cases {s t : State} (h : step s = .next t) :
    (s.port = [] ∧ t = s) ∨
    (∃ later, s.port = .reset :: later ∧ t = { State.reset with port := later }) ∨
    (∃ w later i, s.port = .command w :: later ∧ decode w = .command i ∧
      exec i { s with port := later } = .next t) := by
  rcases hp : s.port with _ | ⟨input, later⟩
  · left
    simp_all [step, takeInput_nil]
  · right
    cases input with
    | reset =>
      left
      rw [step, takeInput_cons s hp] at h
      exact ⟨later, rfl, by simpa [State.applyReset] using h.symm⟩
    | concurrent w₁ w₂ =>
      rw [step, takeInput_cons s hp] at h
      simp at h
    | command w =>
      right
      rw [step, takeInput_cons s hp] at h
      rcases hd : decode w with i | why
      · exact ⟨w, later, i, rfl, hd, by simpa [hd] using h⟩
      · simp [hd] at h

end Sys2Proof.Machine
end

