-- ==== Sys2Proof/Laws/Moves.lean ====
section
/-!
SUPPORT. The moves of the shifts and rotates after `k` steps, each as one value and the last bit moved out (the
closed forms of 45_shifts.md R171 to R173 and 46_rotates.md R180, R181), and what `finishMove` leaves in each
field of the state.
-/

namespace Sys2Proof.Machine

variable {n : Nat} (v : BitVec n)

/-- `k` left moves (R171). -/
theorem moveSteps_shlMove (k : Nat) :
    moveSteps shlMove k v = (v <<< k, decide (1 ≤ k ∧ k ≤ n) && v.getLsbD (n - k)) := by
  induction k with
  | zero => simp
  | succ k ih =>
    rw [moveSteps_succ, ih, shlMove]
    ext1
    · simp [BitVec.shiftLeft_add]
    · simp only [BitVec.msb_eq_getLsbD_last, BitVec.getLsbD_shiftLeft]
      rw [Bool.eq_iff_iff]
      simp only [Bool.and_eq_true, decide_eq_true_eq, Bool.not_eq_true', decide_eq_false_iff_not]
      have index (h : k + 1 ≤ n) : n - 1 - k = n - (k + 1) := by omega
      constructor
      · rintro ⟨⟨h₁, h₂⟩, h₃⟩
        exact ⟨by omega, index (by omega) ▸ h₃⟩
      · rintro ⟨h₁, h₃⟩
        exact ⟨⟨by omega, by omega⟩, (index (by omega)).symm ▸ h₃⟩

/-- `k` right moves with zero fill (R172). -/
theorem moveSteps_shrMove (k : Nat) :
    moveSteps shrMove k v = (v >>> k, decide (1 ≤ k) && v.getLsbD (k - 1)) := by
  induction k with
  | zero => simp
  | succ k ih =>
    rw [moveSteps_succ, ih, shrMove]
    ext1
    · simp [BitVec.shiftRight_add]
    · simp

/-- `k` right moves with sign fill, up to the width (R173). -/
theorem moveSteps_sarMove (k : Nat) (hk : k ≤ n) :
    moveSteps (sarMove v.msb) k v = (v.sshiftRight k, decide (1 ≤ k) && v.getLsbD (k - 1)) := by
  induction k with
  | zero => simp
  | succ k ih =>
    rw [moveSteps_succ, ih (by omega), sarMove]
    ext1
    · apply BitVec.eq_of_getLsbD_eq
      intro j hj
      simp only [getLsbD_placeBit _ _ _ _ hj, BitVec.getLsbD_ushiftRight, BitVec.getLsbD_sshiftRight]
      by_cases h : j = n - 1
      · subst h
        have : ¬(k + 1 + (n - 1) < n) := by omega
        simp [show ¬n ≤ n - 1 by omega, this]
      · simp [h, show ¬n ≤ j by omega, show ¬n ≤ 1 + j by omega, show k + (1 + j) = k + 1 + j by omega]
    · simp [BitVec.getLsbD_sshiftRight, show ¬n ≤ 0 by omega, show k < n by omega]

/-- `k` left rotations, under the width (R180). -/
theorem moveSteps_rolMove (k : Nat) (hk : k < n) :
    moveSteps rolMove k v = (v.rotateLeft k, decide (1 ≤ k) && v.getLsbD (n - k)) := by
  induction k with
  | zero =>
    ext1
    · apply BitVec.eq_of_getLsbD_eq
      intro j hj
      simp [hj]
    · simp
  | succ k ih =>
    have hk' : k % n = k := Nat.mod_eq_of_lt (by omega)
    have top : (v.rotateLeft k).msb = v.getLsbD (n - (k + 1)) := by
      have last : n - 1 - k = n - (k + 1) := by omega
      rw [BitVec.msb_eq_getLsbD_last, BitVec.getLsbD_rotateLeft, hk']
      simp [show ¬n - 1 < k by omega, show n - 1 < n by omega, last]
    rw [moveSteps_succ, ih (by omega), rolMove]
    ext1
    · apply BitVec.eq_of_getLsbD_eq
      intro j hj
      simp only [getLsbD_placeBit _ _ _ _ hj, top, BitVec.getLsbD_shiftLeft, BitVec.getLsbD_rotateLeft, hk',
        Nat.mod_eq_of_lt hk]
      by_cases h : j = 0
      · simp [h]
      · have shifted : n - k + (j - 1) = n - (k + 1) + j := by omega
        have kept : j - 1 - k = j - (k + 1) := by omega
        by_cases h₂ : j < k + 1
        · simp [h, h₂, hj, show j - 1 < k by omega, show ¬j < 1 by omega, shifted]
        · simp [h, h₂, hj, show ¬j - 1 < k by omega, show ¬j < 1 by omega, show j - 1 < n by omega, kept]
    · simp [top]

/-- `k` right rotations, under the width (R181). -/
theorem moveSteps_rorMove (k : Nat) (hk : k < n) :
    moveSteps rorMove k v = (v.rotateRight k, decide (1 ≤ k) && v.getLsbD (k - 1)) := by
  induction k with
  | zero =>
    ext1
    · apply BitVec.eq_of_getLsbD_eq
      intro j hj
      simp [hj]
    · simp
  | succ k ih =>
    have hk' : k % n = k := Nat.mod_eq_of_lt (by omega)
    have low : (v.rotateRight k).getLsbD 0 = v.getLsbD k := by
      rw [BitVec.getLsbD_rotateRight, hk']
      simp [show 0 < n - k by omega]
    rw [moveSteps_succ, ih (by omega), rorMove]
    ext1
    · apply BitVec.eq_of_getLsbD_eq
      intro j hj
      simp only [getLsbD_placeBit _ _ _ _ hj, low, BitVec.getLsbD_ushiftRight, BitVec.getLsbD_rotateRight, hk',
        Nat.mod_eq_of_lt hk]
      by_cases h : j = n - 1
      · have wrapped : n - 1 - (n - (k + 1)) = k := by omega
        simp [h, show ¬n - 1 < n - (k + 1) by omega, show n - 1 < n by omega, wrapped]
      · have shifted : k + (1 + j) = k + 1 + j := by omega
        have kept : 1 + j - (n - k) = j - (n - (k + 1)) := by omega
        by_cases h₂ : j < n - (k + 1)
        · simp [h, h₂, show 1 + j < n - k by omega, shifted]
        · simp [h, h₂, hj, show ¬1 + j < n - k by omega, show 1 + j < n by omega, kept]
    · simp [low]

section finishMove

variable (s : State) (reg zero temp : Reg) (m : Moved 16) (steps : Nat) (netOne ofAtOne : Bool)

/-- A shift or rotate leaves the flags that `moveFlags` makes of the internal CMP's. -/
@[simp] theorem finishMove_flags :
    (finishMove s reg zero temp m steps netOne ofAtOne).flags =
      moveFlags (subWords m.1 (s.reg zero)).2 steps m.2 netOne ofAtOne := rfl

/-- A shift or rotate takes nothing from the host's list. -/
@[simp] theorem finishMove_port : (finishMove s reg zero temp m steps netOne ofAtOne).port = s.port := rfl

/-- The registers a shift or rotate leaves: the internal CMP's difference in `temp`, the moved value in `reg`. -/
theorem finishMove_reg (r : Reg) :
    (finishMove s reg zero temp m steps netOne ofAtOne).reg r =
      if r = temp then (subWords m.1 (s.reg zero)).1 else if r = reg then m.1 else s.reg r := by
  simp only [finishMove, setFlags_reg, reg_setReg]

end finishMove

end Sys2Proof.Machine
end

