-- ==== Sys2Proof/Laws/PerInstr.lean ====
section
/-!
SUPPORT. Facts about each command as syntax. `EncodedRow`: the word of a command hits the command's own row
of the match and mask table (30_encoding.md R67, R68).
-/

namespace Sys2Proof.Laws

/-- The bits of a word in format R (R61). -/
theorem getLsbD_formatR (op : BitVec 4) (a b c d e : Reg) (j : Nat) :
    (formatR op a b c d e).getLsbD j =
      if j < 8 then false
      else if j < 12 then (regBits e).getLsbD (j - 8)
      else if j < 16 then (regBits d).getLsbD (j - 12)
      else if j < 20 then (regBits c).getLsbD (j - 16)
      else if j < 24 then (regBits b).getLsbD (j - 20)
      else if j < 28 then (regBits a).getLsbD (j - 24)
      else op.getLsbD (j - 28) := by
  simp only [formatR, BitVec.getLsbD_append, BitVec.getLsbD_zero]
  split_ifs <;> first | rfl | omega

/-- The bits of a word in format S (R62). -/
theorem getLsbD_formatS (op : BitVec 4) (reg zero temp : Reg) (count : Nat) (j : Nat) :
    (formatS op reg zero temp count).getLsbD j =
      if j < 16 then (BitVec.ofNat 16 count).getLsbD j
      else if j < 20 then (regBits temp).getLsbD (j - 16)
      else if j < 24 then (regBits zero).getLsbD (j - 20)
      else if j < 28 then (regBits reg).getLsbD (j - 24)
      else op.getLsbD (j - 28) := by
  simp only [formatS, BitVec.getLsbD_append]
  split_ifs <;> first | rfl | omega

/-- The bits of a word in format I (R63). -/
theorem getLsbD_formatI (op : BitVec 4) (reg : Reg) (imm : Word) (j : Nat) :
    (formatI op reg imm).getLsbD j =
      if j < 16 then imm.getLsbD j
      else if j < 24 then false
      else if j < 28 then (regBits reg).getLsbD (j - 24)
      else op.getLsbD (j - 28) := by
  simp only [formatI, BitVec.getLsbD_append, BitVec.getLsbD_zero]
  split_ifs <;> first | rfl | omega

/-- The unused register fields of a command are zero (R61). -/
@[simp] theorem regBits_zero : regBits 0 = 0#4 := rfl

/-- Two words that agree at all 32 bit positions are one. -/
theorem eq_of_bits {v w : CmdWord} (h : ∀ j < 32, v.getLsbD j = w.getLsbD j) : v = w :=
  BitVec.eq_of_getLsbD_eq h

namespace EncodedRow

/-- The command's row of R67 is hit by the command's word. -/
def Statement (i : Instr) : Prop :=
  ∃ row ∈ matchTable, row.mnemonic = i.mnemonic ∧ row.hits (encode i) = true

theorem of_row (i : Instr) (row : MatchRow) (hm : row ∈ matchTable) (hn : row.mnemonic = i.mnemonic)
    (hh : encode i &&& row.maskBits = row.matchBits) : Statement i :=
  ⟨row, hm, hn, by simp [MatchRow.hits, hh]⟩

theorem add (lhs rhs : Reg) : Statement (.add lhs rhs) := by
  refine of_row _ ⟨"ADD", 0x10000000#32, 0xF00FFFFF#32⟩ (by decide) rfl (eq_of_bits fun j hj => ?_)
  simp only [encode, BitVec.getLsbD_and, getLsbD_formatR, regBits_zero]
  interval_cases j <;> simp

theorem sub (lhs rhs : Reg) : Statement (.sub lhs rhs) := by
  refine of_row _ ⟨"SUB", 0x20000000#32, 0xF00FFFFF#32⟩ (by decide) rfl (eq_of_bits fun j hj => ?_)
  simp only [encode, BitVec.getLsbD_and, getLsbD_formatR, regBits_zero]
  interval_cases j <;> simp

theorem mul (lhs rhs temp zero : Reg) : Statement (.mul lhs rhs temp zero) := by
  refine of_row _ ⟨"MUL", 0x30000000#32, 0xF0000FFF#32⟩ (by decide) rfl (eq_of_bits fun j hj => ?_)
  simp only [encode, BitVec.getLsbD_and, getLsbD_formatR, regBits_zero]
  interval_cases j <;> simp

theorem div (lhs rhs quotient temp zero : Reg) : Statement (.div lhs rhs quotient temp zero) := by
  refine of_row _ ⟨"DIV", 0x40000000#32, 0xF00000FF#32⟩ (by decide) rfl (eq_of_bits fun j hj => ?_)
  simp only [encode, BitVec.getLsbD_and, getLsbD_formatR]
  interval_cases j <;> simp

theorem inc (reg : Reg) : Statement (.inc reg) := by
  refine of_row _ ⟨"INC", 0x50000000#32, 0xF0FFFFFF#32⟩ (by decide) rfl (eq_of_bits fun j hj => ?_)
  simp only [encode, BitVec.getLsbD_and, getLsbD_formatR, regBits_zero]
  interval_cases j <;> simp

theorem dec (reg : Reg) : Statement (.dec reg) := by
  refine of_row _ ⟨"DEC", 0x60000000#32, 0xF0FFFFFF#32⟩ (by decide) rfl (eq_of_bits fun j hj => ?_)
  simp only [encode, BitVec.getLsbD_and, getLsbD_formatR, regBits_zero]
  interval_cases j <;> simp

theorem neg (reg temp zero : Reg) : Statement (.neg reg temp zero) := by
  refine of_row _ ⟨"NEG", 0x70000000#32, 0xF000FFFF#32⟩ (by decide) rfl (eq_of_bits fun j hj => ?_)
  simp only [encode, BitVec.getLsbD_and, getLsbD_formatR, regBits_zero]
  interval_cases j <;> simp

theorem shl (reg : Reg) (count : Nat) (zero temp : Reg) : Statement (.shl reg count zero temp) := by
  refine of_row _ ⟨"SHL", 0x80000000#32, 0xF0000000#32⟩ (by decide) rfl (eq_of_bits fun j hj => ?_)
  simp only [encode, BitVec.getLsbD_and, getLsbD_formatS]
  interval_cases j <;> simp

theorem shr (reg : Reg) (count : Nat) (zero temp : Reg) : Statement (.shr reg count zero temp) := by
  refine of_row _ ⟨"SHR", 0x90000000#32, 0xF0000000#32⟩ (by decide) rfl (eq_of_bits fun j hj => ?_)
  simp only [encode, BitVec.getLsbD_and, getLsbD_formatS]
  interval_cases j <;> simp

theorem sar (reg : Reg) (count : Nat) (zero temp : Reg) : Statement (.sar reg count zero temp) := by
  refine of_row _ ⟨"SAR", 0xA0000000#32, 0xF0000000#32⟩ (by decide) rfl (eq_of_bits fun j hj => ?_)
  simp only [encode, BitVec.getLsbD_and, getLsbD_formatS]
  interval_cases j <;> simp

theorem rol (reg : Reg) (count : Nat) (zero temp : Reg) : Statement (.rol reg count zero temp) := by
  refine of_row _ ⟨"ROL", 0xB0000000#32, 0xF0000000#32⟩ (by decide) rfl (eq_of_bits fun j hj => ?_)
  simp only [encode, BitVec.getLsbD_and, getLsbD_formatS]
  interval_cases j <;> simp

theorem ror (reg : Reg) (count : Nat) (zero temp : Reg) : Statement (.ror reg count zero temp) := by
  refine of_row _ ⟨"ROR", 0xC0000000#32, 0xF0000000#32⟩ (by decide) rfl (eq_of_bits fun j hj => ?_)
  simp only [encode, BitVec.getLsbD_and, getLsbD_formatS]
  interval_cases j <;> simp

theorem cmp (lhs rhs temp : Reg) : Statement (.cmp lhs rhs temp) := by
  refine of_row _ ⟨"CMP", 0xD0000000#32, 0xF000FFFF#32⟩ (by decide) rfl (eq_of_bits fun j hj => ?_)
  simp only [encode, BitVec.getLsbD_and, getLsbD_formatR, regBits_zero]
  interval_cases j <;> simp

theorem mov (dst src : Reg) : Statement (.mov dst src) := by
  refine of_row _ ⟨"MOV", 0xE0000000#32, 0xF00FFFFF#32⟩ (by decide) rfl (eq_of_bits fun j hj => ?_)
  simp only [encode, BitVec.getLsbD_and, getLsbD_formatR, regBits_zero]
  interval_cases j <;> simp

theorem ldi (reg : Reg) (imm : Word) : Statement (.ldi reg imm) := by
  refine of_row _ ⟨"LDI", 0xF0000000#32, 0xF0FF0000#32⟩ (by decide) rfl (eq_of_bits fun j hj => ?_)
  simp only [encode, BitVec.getLsbD_and, getLsbD_formatI]
  interval_cases j <;> simp

end EncodedRow

end Sys2Proof.Laws
end

