-- ==== Sys2Proof/Tests/Slice0.lean ====
section
/-!
SUPPORT. The model's own tests. Expected results are the vectors of `spec/95_test_vectors.md` (parts named in the
comments), words are written from the patterns of 30_encoding.md R67. The `witness_` theorems show states and
operands that meet the hypotheses of the statements in `Certificates/Slice0/Obligations.lean`.
-/

-- The kernel evaluates each test in turn; elaborated all at once they would hold a thread each.
set_option Elab.async false

namespace Sys2Proof.Tests

open Sys2Proof.Machine

/-! ### Well-formedness -/

theorem test_wellFormed_refuses_count_65536 :
    (Instr.shl 1 65536 15 14).wellFormed = false ∧ (Instr.shr 1 65536 15 14).wellFormed = false ∧
    (Instr.sar 1 65536 15 14).wellFormed = false ∧ (Instr.rol 1 65536 15 14).wellFormed = false ∧
    (Instr.ror 1 65536 15 14).wellFormed = false := by decide

theorem test_wellFormed_admits_count_65535 : (Instr.shl 1 65535 15 14).wellFormed = true := by decide

/-! ### Decoding: one word for each command, `op` and fields written out bit by bit (R67), and its encoding -/

theorem test_decode_add :
    decode 0b0001_0001_0010_0000_0000_0000_0000_0000#32 = .command (.add 1 2) := by decide +kernel
theorem test_decode_sub :
    decode 0b0010_0001_0010_0000_0000_0000_0000_0000#32 = .command (.sub 1 2) := by decide +kernel
theorem test_decode_mul :
    decode 0b0011_0001_0010_1110_1111_0000_0000_0000#32 = .command (.mul 1 2 14 15) := by decide +kernel
theorem test_decode_div :
    decode 0b0100_0001_0010_0011_0100_1111_0000_0000#32 = .command (.div 1 2 3 4 15) := by decide +kernel
theorem test_decode_inc :
    decode 0b0101_0001_0000_0000_0000_0000_0000_0000#32 = .command (.inc 1) := by decide +kernel
theorem test_decode_dec :
    decode 0b0110_0001_0000_0000_0000_0000_0000_0000#32 = .command (.dec 1) := by decide +kernel
theorem test_decode_neg :
    decode 0b0111_0001_1110_1111_0000_0000_0000_0000#32 = .command (.neg 1 14 15) := by decide +kernel
theorem test_decode_shl :
    decode 0b1000_0001_1111_1110_0000_0000_0000_0001#32 = .command (.shl 1 1 15 14) := by decide +kernel
theorem test_decode_shr :
    decode 0b1001_0001_1111_1110_0000_0000_0000_0001#32 = .command (.shr 1 1 15 14) := by decide +kernel
theorem test_decode_sar :
    decode 0b1010_0010_1111_1110_0000_0000_0001_0000#32 = .command (.sar 2 16 15 14) := by decide +kernel
theorem test_decode_rol :
    decode 0b1011_0001_1111_1110_0000_0000_0000_0010#32 = .command (.rol 1 2 15 14) := by decide +kernel
theorem test_decode_ror :
    decode 0b1100_0001_1111_1110_0000_0000_0001_0001#32 = .command (.ror 1 17 15 14) := by decide +kernel
theorem test_decode_cmp :
    decode 0b1101_0001_0010_1110_0000_0000_0000_0000#32 = .command (.cmp 1 2 14) := by decide +kernel
theorem test_decode_mov :
    decode 0b1110_0101_0010_0000_0000_0000_0000_0000#32 = .command (.mov 5 2) := by decide +kernel
theorem test_decode_ldi :
    decode 0b1111_0011_0000_0000_1111_1111_1111_1110#32 = .command (.ldi 3 0xFFFE#16) := by decide +kernel

/-- The invalid rows of 95_test_vectors.md 2.11. -/
theorem test_decode_invalid :
    decode 0x00000000#32 = .invalid .reservedOpcode ∧ decode 0x0FFFFFFF#32 = .invalid .reservedOpcode ∧
    decode 0x11200001#32 = .invalid .mustBeZeroBitSet ∧ decode 0x11210000#32 = .invalid .mustBeZeroBitSet ∧
    decode 0x312EF100#32 = .invalid .mustBeZeroBitSet ∧ decode 0x41234F01#32 = .invalid .mustBeZeroBitSet ∧
    decode 0x51100000#32 = .invalid .mustBeZeroBitSet ∧ decode 0xD12E1000#32 = .invalid .mustBeZeroBitSet ∧
    decode 0xF310FFFE#32 = .invalid .mustBeZeroBitSet := by decide +kernel

/-- The words of the worked examples of the operation rules. -/
theorem test_encode_examples :
    encode (.mul 1 2 14 15) = 0x312EF000#32 ∧ encode (.div 1 2 3 4 15) = 0x41234F00#32 ∧
    encode (.neg 1 14 15) = 0x71EF0000#32 ∧ encode (.shl 0 65535 0 0) = 0x8000FFFF#32 ∧
    encode (.mov 5 2) = 0xE5200000#32 ∧ encode (.ldi 3 0xFFFE#16) = 0xF300FFFE#32 := by decide +kernel

theorem test_decodeTableWord :
    decodeTableWord 32 0x81FE0001 = some (.shl 1 1 15 14) ∧ decodeTableWord 32 0x00000000 = none := by
  decide +kernel

/-! ### One command each -/

/-- The reset state with some registers loaded and CF and OF set, as in 95_test_vectors.md 2.8. -/
def loaded (contents : List (Reg × Word)) : State :=
  (contents.foldl (fun s p => s.setReg p.1 p.2) State.reset).setFlags ⟨true, false, false, true⟩

/-- The registers asked for and the flags, after a command that completes. -/
def view (rs : List Reg) (o : Result) : Option (List Word × Flags) :=
  (stateOf o).map fun s => (rs.map s.reg, s.flags)

/-- S2: INT16_MAX + 1. -/
theorem test_add_overflow : view [1, 2] (exec (.add 1 2) (loaded [(1, 0x7FFF), (2, 1)])) =
    some ([0x8000#16, 1#16], ⟨false, false, true, true⟩) := by decide +kernel
/-- 2.1, `lhs == rhs`. -/
theorem test_add_same : view [1] (exec (.add 1 1) (loaded [(1, 0x8000)])) =
    some ([0#16], ⟨true, true, false, true⟩) := by decide +kernel
/-- S3: INT16_MIN - 1. -/
theorem test_sub_overflow : view [1, 2] (exec (.sub 1 2) (loaded [(1, 0x8000), (2, 1)])) =
    some ([0x7FFF#16, 1#16], ⟨false, false, false, true⟩) := by decide +kernel
/-- 2.2: a borrow with overflow. -/
theorem test_sub_borrow : view [1] (exec (.sub 1 2) (loaded [(1, 0x7FFF), (2, 0xFFFF)])) =
    some ([0x8000#16], ⟨true, false, true, true⟩) := by decide +kernel
/-- 2.3. -/
theorem test_cmp_less : view [1, 2, 3] (exec (.cmp 1 2 3) (loaded [(1, 3), (2, 8), (3, 0xDEAD)])) =
    some ([3#16, 8#16, 0xFFFB#16], ⟨true, false, true, false⟩) := by decide +kernel
theorem test_cmp_refuses_temp_lhs : refusalOf (exec (.cmp 1 2 1) State.reset) = some .operandAlias := by
  decide +kernel
/-- 2.4. -/
theorem test_mul_wraps : view [1, 2, 3, 15] (exec (.mul 1 2 3 15) (loaded [(1, 0x8001), (2, 3), (3, 0xDEAD)])) =
    some ([0x8003#16, 3#16, 0#16, 0#16], ⟨true, true, false, true⟩) := by decide +kernel
/-- 2.4, squares, with an even multiplicand. -/
theorem test_mul_same : view [1, 3] (exec (.mul 1 1 3 15) (loaded [(1, 0x0100), (3, 0xDEAD)])) =
    some ([0#16, 0#16], ⟨false, true, false, false⟩) := by decide +kernel
/-- 2.5: -7 / 2 read as 65529 / 2. And S6, by R152's own loop. -/
theorem test_div_unsigned : view [1, 2, 3, 4] (exec (.div 1 2 3 4 15) (loaded [(1, 0xFFF9), (2, 2)])) =
    some ([0x7FFC#16, 2#16, 0x7FFC#16, 1#16], ⟨false, false, false, false⟩) ∧
    repeatedSubtraction 42#16 4#16 = (10#16, 2#16) := by decide +kernel
/-- R153. -/
theorem test_div_by_zero :
    view [1, 3, 4] (exec (.div 1 2 3 4 15) (loaded [(1, 0x2A), (3, 0xAAAA), (4, 0xBBBB)])) =
    some ([0#16, 0xAAAA#16, 0xBBBB#16], ⟨true, true, false, true⟩) := by decide +kernel
/-- 2.6; CF is kept. -/
theorem test_inc_overflow : view [1] (exec (.inc 1) (loaded [(1, 0x7FFF)])) =
    some ([0x8000#16], ⟨true, false, true, true⟩) := by decide +kernel
theorem test_inc_wraps : view [1] (exec (.inc 1) (loaded [(1, 0xFFFF)])) =
    some ([0#16], ⟨true, true, false, false⟩) := by decide +kernel
/-- 2.6; CF is kept. -/
theorem test_dec_overflow : view [1] (exec (.dec 1) (loaded [(1, 0x8000)])) =
    some ([0x7FFF#16], ⟨true, false, false, true⟩) := by decide +kernel
theorem test_dec_wraps : view [1] (exec (.dec 1) (loaded [(1, 0)])) =
    some ([0xFFFF#16], ⟨true, false, true, false⟩) := by decide +kernel
/-- 2.7. -/
theorem test_neg_minimum : view [1, 3] (exec (.neg 1 3 15) (loaded [(1, 0x8000)])) =
    some ([0x8000#16, 0x8000#16], ⟨true, false, true, true⟩) := by decide +kernel
theorem test_neg_refuses_zero_not_zero :
    refusalOf (exec (.neg 1 3 4) (loaded [(4, 2)])) = some .zeroOperandNotZero := by decide +kernel
/-- 2.8. -/
theorem test_shl_one : view [1, 14] (exec (.shl 1 1 15 14) (loaded [(1, 0x4000)])) =
    some ([0x8000#16, 0x8000#16], ⟨false, false, true, true⟩) := by decide +kernel
theorem test_shl_saturates : view [1] (exec (.shl 1 65535 15 14) (loaded [(1, 0x8001)])) =
    some ([0#16], ⟨true, true, false, false⟩) := by decide +kernel
/-- 2.8; count 15 and count 0. -/
theorem test_shr_fifteen : view [1, 14] (exec (.shr 1 15 15 14) (loaded [(1, 0xC000)])) =
    some ([1#16, 1#16], ⟨true, false, false, false⟩) := by decide +kernel
theorem test_shr_zero_count : view [1, 14] (exec (.shr 1 0 15 14) (loaded [(1, 0x8001)])) =
    some ([0x8001#16, 0x8001#16], ⟨false, false, true, false⟩) := by decide +kernel
/-- 2.8. -/
theorem test_sar_one : view [1, 14] (exec (.sar 1 1 15 14) (loaded [(1, 0x8001)])) =
    some ([0xC000#16, 0xC000#16], ⟨true, false, true, false⟩) := by decide +kernel
theorem test_sar_saturates : view [1] (exec (.sar 1 17 15 14) (loaded [(1, 0x8001)])) =
    some ([0xFFFF#16], ⟨true, false, true, false⟩) := by decide +kernel
/-- 2.9; counts 17 and 16. -/
theorem test_rol_seventeen : view [1, 14] (exec (.rol 1 17 15 14) (loaded [(1, 0xC000)])) =
    some ([0x8001#16, 0x8001#16], ⟨true, false, true, false⟩) := by decide +kernel
theorem test_rol_sixteen : view [1] (exec (.rol 1 16 15 14) (loaded [(1, 0x0009)])) =
    some ([9#16], ⟨false, false, false, false⟩) := by decide +kernel
/-- 2.9; counts 1 and 4. -/
theorem test_ror_one : view [1, 14] (exec (.ror 1 1 15 14) (loaded [(1, 0xC000)])) =
    some ([0x6000#16, 0x6000#16], ⟨false, false, false, true⟩) := by decide +kernel
theorem test_ror_four : view [1] (exec (.ror 1 4 15 14) (loaded [(1, 0x0009)])) =
    some ([0x9000#16], ⟨true, false, true, false⟩) := by decide +kernel
/-- 2.10. -/
theorem test_mov : view [5, 2] (exec (.mov 5 2) (loaded [(2, 0x1234)])) =
    some ([0x1234#16, 0x1234#16], ⟨true, false, false, true⟩) := by decide +kernel
theorem test_ldi : view [3] (exec (.ldi 3 0xFFFE#16) (loaded [(3, 0xAAAA)])) =
    some ([0xFFFE#16], ⟨true, false, false, true⟩) := by decide +kernel

/-! ### Steps from reset (2.12, P7) and text -/

theorem test_step_inc_after_reset : view [0] (step (State.reset.withFetchWord 32 0x50000000)) =
    some ([1#16], ⟨false, false, false, false⟩) := by decide +kernel
theorem test_step_refuses_invalid :
    refusalOf (step (State.reset.withFetchWord 32 0)) = some .invalidCommandWord := by decide +kernel
theorem test_step_refuses_p7 :
    refusalOf (step ((loaded [(15, 1)]).withFetchWord 32 0x81FE0001)) = some .zeroOperandNotZero := by
  decide +kernel
theorem test_readFlags : (loaded []).readFlags = 0b1001#4 := by decide +kernel
/-- The first lines of program P1. -/
theorem test_assemble_p1 : assemble "LDI(r1, 5)\nLDI(r2, 3) -- load\n\nADD(r1, r2)".toList =
    some [0xF1000005#32, 0xF2000003#32, 0x11200000#32] := by decide +kernel
theorem test_instrText :
    instrText (.shl 1 65535 15 14) = "SHL(r1, 65535, r15, r14)".toList := by decide +kernel

/-! ### The hypotheses of the statements can be met -/

theorem witness_DecodeOfEncode :
    (Instr.ror 1 65535 15 14).WellFormed ∧ (Instr.shl 1 0 15 14).WellFormed ∧ (Instr.add 1 2).WellFormed := by
  decide
theorem witness_EncodeOfDecode : decode 0xC1FEFFFF#32 = .command (.ror 1 65535 15 14) := by decide +kernel
theorem witness_DecodeAgreesWithMatchTable :
    (⟨"MOV", 0xE0000000#32, 0xF00FFFFF#32⟩ : MatchRow) ∈ matchTable ∧
    (⟨"MOV", 0xE0000000#32, 0xF00FFFFF#32⟩ : MatchRow).hits 0xE5200000#32 = true := by decide +kernel
theorem witness_InvalidWordsAreTheReservedOnes :
    (0x0FFFFFFF#32 : CmdWord).extractLsb' 28 4 = 0#4 ∧ (0x10000001#32 : CmdWord).extractLsb' 28 4 ≠ 0#4 ∧
    ∀ row ∈ matchTable, row.hits 0x10000001#32 = false := by decide +kernel
theorem witness_StepRunsDecodedCommand :
    (State.reset.presentNext 0x50000000#32).port = .command 0x50000000#32 :: [] ∧
    decode 0x50000000#32 = .command (.inc 0) := by decide +kernel
theorem witness_StepRefusesInvalidWord :
    (State.reset.presentNext 0#32).port = .command 0#32 :: [] ∧ decode 0#32 = .invalid .reservedOpcode := by
  decide +kernel
theorem witness_ResetInputClearsTheBlock :
    ({ loaded [(1, 7)] with port := [.reset, .reset] } : State).port = .reset :: [.reset] := rfl
theorem witness_IdleStepAndConcurrentUse :
    State.reset.port = [] ∧
    ({ State.reset with port := [.concurrent 1#32 2#32] } : State).port = .concurrent 1#32 2#32 :: [] :=
  ⟨rfl, rfl⟩
theorem witness_StepIgnoresLaterInputs :
    (State.reset.presentNext 0x50000000#32).port = .command 0x50000000#32 :: [] ∧
    ∃ t : State, step (State.reset.presentNext 0x50000000#32) = .next t := ⟨rfl, _, rfl⟩
theorem witness_CmpCompletes :
    ((14 : Reg) ≠ 1 ∧ (14 : Reg) ≠ 1) ∧ ((14 : Reg) ≠ 0 ∧ (14 : Reg) ≠ 15) ∧
    ((1 : Reg) = 1 ∨ (1 : Reg) = 2) ∧ ((2 : Reg) = 1 ∨ (2 : Reg) = 2) := by decide
/-- `reg = 1`, `temp = 14`, `zero = 15` for NEG, the shifts and the rotates. -/
theorem witness_NegCompletes :
    (14 : Reg) ≠ 1 ∧ (14 : Reg) ≠ 15 ∧ (15 : Reg) ≠ 1 ∧ (loaded [(1, 0x8000)]).reg 15 = 0#16 := by
  decide +kernel
/-- The same operands; counts at the ends of their ranges: 0, 1, 16, 17 and 65535 all meet the hypotheses, which
do not mention the count. -/
theorem witness_ShlCompletes :
    (14 : Reg) ≠ 1 ∧ (14 : Reg) ≠ 15 ∧ (15 : Reg) ≠ 1 ∧ (loaded [(1, 0x4000)]).reg 15 = 0#16 := by
  decide +kernel
theorem witness_ShrCompletes :
    (14 : Reg) ≠ 1 ∧ (14 : Reg) ≠ 15 ∧ (15 : Reg) ≠ 1 ∧ (loaded [(1, 0x8001)]).reg 15 = 0#16 := by
  decide +kernel
theorem witness_SarCompletes :
    (14 : Reg) ≠ 1 ∧ (14 : Reg) ≠ 15 ∧ (15 : Reg) ≠ 1 ∧ (loaded [(1, 0xFFFF)]).reg 15 = 0#16 := by
  decide +kernel
theorem witness_RolCompletes :
    (14 : Reg) ≠ 1 ∧ (14 : Reg) ≠ 15 ∧ (15 : Reg) ≠ 1 ∧ (loaded [(1, 0x0009)]).reg 15 = 0#16 := by
  decide +kernel
theorem witness_RorCompletes :
    (14 : Reg) ≠ 1 ∧ (14 : Reg) ≠ 15 ∧ (15 : Reg) ≠ 1 ∧ (loaded [(1, 0x0024)]).reg 15 = 0#16 := by
  decide +kernel
/-- `rhs` may be `lhs` and may be `zero`. -/
theorem witness_MulCompletes :
    ((3 : Reg) ≠ 1 ∧ (3 : Reg) ≠ 1 ∧ (3 : Reg) ≠ 15 ∧ (15 : Reg) ≠ 1) ∧
    ((3 : Reg) ≠ 1 ∧ (3 : Reg) ≠ 15 ∧ (3 : Reg) ≠ 15 ∧ (15 : Reg) ≠ 1) ∧
    (loaded [(1, 5)]).reg 15 = 0#16 := by decide +kernel
theorem witness_DivCompletes :
    (3 : Reg) ∉ [(1 : Reg), 2, 4, 15] ∧ (4 : Reg) ∉ [(1 : Reg), 2, 15] ∧ (15 : Reg) ≠ 1 ∧
    (loaded [(1, 42), (2, 4)]).reg 15 = 0#16 ∧ (loaded [(1, 42), (2, 4)]).reg 2 ≠ 0#16 := by
  decide +kernel
theorem witness_DivByZeroCompletes :
    (3 : Reg) ∉ [(1 : Reg), 15, 4, 15] ∧ (4 : Reg) ∉ [(1 : Reg), 15, 15] ∧ (15 : Reg) ≠ 1 ∧
    (loaded [(1, 42)]).reg 15 = 0#16 := by decide +kernel
theorem witness_RefusalsAreExactlyTheListed :
    InDomain (.mul 1 2 3 15) State.reset ∧ operandsDistinct (.mul 1 2 1 15) = false ∧
    (operandsDistinct (.mul 1 2 3 4) = true ∧
      zeroOperandHolds (.mul 1 2 3 4) (loaded [(4, 1)]) = false) := by decide +kernel
theorem witness_OnlyWrittenRegistersChange :
    ∃ t : State, exec (.div 1 2 3 4 15) (loaded [(1, 42), (2, 4)]) = .next t := ⟨_, rfl⟩
theorem witness_ZeroOperandIsKept :
    (∃ t : State, exec (.shl 1 1 15 14) State.reset = .next t) ∧ zeroOperand (.shl 1 1 15 14) = some 15 :=
  ⟨⟨_, rfl⟩, rfl⟩
theorem witness_NoCommandReadsAFlag : ∃ t : State, exec (.inc 1) State.reset = .next t := ⟨_, rfl⟩
/-- Two states that differ in DIV's scratch register `r3` alone, with a divisor that is zero and one that is
not. -/
theorem witness_OnlyReadRegistersMatter :
    (∀ r ∈ readRegs (.div 1 2 3 4 15), (loaded [(1, 42), (2, 4)]).reg r =
      (loaded [(1, 42), (2, 4), (3, 9)]).reg r) ∧
    (loaded [(1, 42), (2, 4)]).flags = (loaded [(1, 42), (2, 4), (3, 9)]).flags ∧
    (∃ t : State, exec (.div 1 2 3 4 15) (loaded [(1, 42), (2, 4)]) = .next t) ∧
    (∃ t : State, exec (.div 1 2 3 4 15) (loaded [(1, 42)]) = .next t) :=
  ⟨by decide +kernel, rfl, ⟨_, rfl⟩, ⟨_, rfl⟩⟩
theorem witness_ZeroAndSignDescribeTheDestination :
    (∃ t : State, exec (.cmp 1 2 3) State.reset = .next t) ∧ flaggedDestination (.cmp 1 2 3) = some 3 :=
  ⟨⟨_, rfl⟩, rfl⟩
theorem witness_EveryStepKeepsFlagsConsistent :
    FlagsConsistent (State.reset.presentNext 0x50000000#32) ∧
    ∃ t : State, step (State.reset.presentNext 0x50000000#32) = .next t := ⟨by decide, _, rfl⟩
theorem witness_DivIsRepeatedSubtraction : (1#16 : Word) ≠ 0#16 ∧ (0xFFFF#16 : Word) ≠ 0#16 := by decide
theorem witness_DivisionByZeroIsCarryAndOverflow :
    (∃ t : State, exec (.div 1 2 3 4 15) State.reset = .next t) ∧
    (∃ t : State, exec (.div 1 2 3 4 15) (loaded [(2, 8)]) = .next t) := ⟨⟨_, rfl⟩, ⟨_, rfl⟩⟩
theorem witness_CmpFlagsOrderTheOperands :
    ∃ t : State, exec (.cmp 1 2 3) (loaded [(1, 0x8000), (2, 1)]) = .next t := ⟨_, rfl⟩
theorem witness_AddThenSubRestores : (1 : Reg) ≠ 2 := by decide
theorem witness_NegTwiceRestores :
    (14 : Reg) ≠ 1 ∧ (14 : Reg) ≠ 15 ∧ (15 : Reg) ≠ 1 ∧ (loaded [(1, 5)]).reg 15 = 0#16 := by decide +kernel
theorem witness_RotateBackRestores :
    (14 : Reg) ≠ 1 ∧ (14 : Reg) ≠ 15 ∧ (15 : Reg) ≠ 1 ∧ (loaded [(1, 9)]).reg 15 = 0#16 := by decide +kernel
theorem witness_CountsSaturateAndReduce : 16 ≤ 16 ∧ 16 ≤ 65535 := by decide
theorem witness_ShiftsCompose : 0 < 16 ∧ 15 < 16 := by decide
theorem witness_IntegerReadingsKeepTheValue : 16 ≤ 16 ∧ 15 < 16 := by decide
theorem witness_BitAccessIsLocal : 15 < 16 ∧ 16 ≤ 16 := by decide
theorem witness_ReadLineOfInstrText :
    (Instr.shl 1 65535 15 14).WellFormed ∧ (Instr.ldi 1 0xFFFF#16).WellFormed := by decide

end Sys2Proof.Tests
end

namespace Sys2Proof.Machine

/-!
What a command does, said once. `commandEffect` reads off a command what it writes: a list of register writes
and the flags it leaves, as a function of the registers and the flags it starts from. `exec_eq_guarded` ties it to
`exec`, and the statements of 10_state.md about every command (R21, R23, R28, R29, R32) are then statements about
this list and these flags.
-/

/-! ### Writing a list of registers -/

/-- The writes of the list, one after the other. -/
def State.setRegs (s : State) : List (Reg × Word) → State
  | [] => s
  | w :: ws => (s.setReg w.1 w.2).setRegs ws

@[simp] theorem setRegs_nil (s : State) : s.setRegs [] = s := rfl

@[simp] theorem setRegs_cons (s : State) (w : Reg × Word) (ws : List (Reg × Word)) :
    s.setRegs (w :: ws) = (s.setReg w.1 w.2).setRegs ws := rfl

@[simp] theorem setRegs_port (s : State) (ws : List (Reg × Word)) : (s.setRegs ws).port = s.port := by
  induction ws generalizing s with
  | nil => rfl
  | cons w ws ih => simp [ih]

/-- A register that is not in the list keeps its content (R21). -/
theorem setRegs_reg_of_notMem (s : State) (ws : List (Reg × Word)) {r : Reg} (hr : r ∉ ws.map Prod.fst) :
    (s.setRegs ws).reg r = s.reg r := by
  induction ws generalizing s with
  | nil => rfl
  | cons w ws ih =>
    obtain ⟨hne, hnot⟩ : r ≠ w.1 ∧ r ∉ ws.map Prod.fst := by simpa using hr
    rw [setRegs_cons, ih _ hnot, reg_setReg_of_ne _ _ hne]

/-- A register that is in the list ends with the value the list gives it, whatever the state was. -/
theorem setRegs_reg_eq_of_mem (s s' : State) (ws : List (Reg × Word)) {r : Reg} (hr : r ∈ ws.map Prod.fst) :
    (s.setRegs ws).reg r = (s'.setRegs ws).reg r := by
  induction ws generalizing s s' with
  | nil => simp at hr
  | cons w ws ih =>
    by_cases hmem : r ∈ ws.map Prod.fst
    · exact ih _ _ hmem
    · have hw : r = w.1 := by simpa [hmem] using hr
      subst hw
      simp only [setRegs_cons, setRegs_reg_of_notMem _ _ hmem, reg_setReg_self]

theorem setRegs_setFlags (s : State) (f : Flags) (ws : List (Reg × Word)) :
    (s.setFlags f).setRegs ws = (s.setRegs ws).setFlags f := by
  induction ws generalizing s with
  | nil => rfl
  | cons w ws ih => exact ih (s.setReg w.1 w.2)

/-! ### The effect of a command -/

/-- The register writes of a command, in order, and the flags it leaves. -/
structure Effect where
  writes : List (Reg × Word)
  flags : Flags

/-- The state after the effect. -/
def Effect.applyTo (e : Effect) (s : State) : State := (s.setRegs e.writes).setFlags e.flags

@[simp] theorem applyTo_flags (e : Effect) (s : State) : (e.applyTo s).flags = e.flags := rfl

@[simp] theorem applyTo_reg (e : Effect) (s : State) (r : Reg) :
    (e.applyTo s).reg r = (s.setRegs e.writes).reg r := rfl

@[simp] theorem applyTo_port (e : Effect) (s : State) : (e.applyTo s).port = s.port := by
  simp [Effect.applyTo]

/-- An effect writes all four flags, so those it is applied to do not matter. -/
theorem applyTo_setFlags (e : Effect) (s : State) (f : Flags) : e.applyTo (s.setFlags f) = e.applyTo s := by
  rw [Effect.applyTo, setRegs_setFlags]
  rfl

/-- The ending of a shift or rotate as an effect (R170, R182). -/
def moveEffect (x : Reg → Word) (reg zero temp : Reg) (m : Moved 16) (steps : Nat)
    (netOne ofAtOne : Bool) : Effect :=
  let compared := subWords m.1 (x zero)
  ⟨[(reg, m.1), (temp, compared.1)], moveFlags compared.2 steps m.2 netOne ofAtOne⟩

/-- The effect of DIV: on a zero divisor that of R153, on any other that of R152. -/
def divisionEffect (x : Reg → Word) (lhs rhs quotient temp zero : Reg) : Effect :=
  if wordsEqual (x rhs) (x zero) then ⟨[(lhs, 0#16)], divByZeroFlags⟩
  else
    let r := divWords (x lhs) (x rhs)
    ⟨[(lhs, r.1), (quotient, r.1), (temp, r.2)],
      { (subWords r.1 (x zero)).2 with cf := false, of := false }⟩

/-- The effect of a command on registers with contents `x` and flags `f`, its operands being in the domain. -/
def commandEffect (i : Instr) (x : Reg → Word) (f : Flags) : Effect :=
  match i with
  | .add lhs rhs => ⟨[(lhs, (addWords (x lhs) (x rhs)).1)], (addWords (x lhs) (x rhs)).2⟩
  | .sub lhs rhs => ⟨[(lhs, (subWords (x lhs) (x rhs)).1)], (subWords (x lhs) (x rhs)).2⟩
  | .mul lhs rhs temp _ =>
    let r := mulLoop (x rhs) ⟨0#16, x lhs, f⟩ Config.architecture
    ⟨[(lhs, r.acc), (temp, r.shifted)], r.flags⟩
  | .div lhs rhs quotient temp zero => divisionEffect x lhs rhs quotient temp zero
  | .inc reg => ⟨[(reg, incWord (x reg))], incFlags f (x reg) (incWord (x reg))⟩
  | .dec reg => ⟨[(reg, decWord (x reg))], decFlags f (x reg) (decWord (x reg))⟩
  | .neg reg temp _ =>
    ⟨[(reg, negWord (x reg)), (temp, negWord (x reg))], negFlags (x reg) (negWord (x reg))⟩
  | .shl reg count zero temp =>
    let m := shlWord (x reg) count
    moveEffect x reg zero temp m (shiftSteps 16 count) (count == 1) (signChangeOf m)
  | .shr reg count zero temp =>
    moveEffect x reg zero temp (shrWord (x reg) count) (shiftSteps 16 count) (count == 1) false
  | .sar reg count zero temp =>
    moveEffect x reg zero temp (sarWord (x reg) count) (shiftSteps 16 count) (count == 1) false
  | .rol reg count zero temp =>
    let m := rolWord (x reg) count
    moveEffect x reg zero temp m (rotateSteps 16 count) (rotateSteps 16 count == 1) (signChangeOf m)
  | .ror reg count zero temp =>
    let m := rorWord (x reg) count
    moveEffect x reg zero temp m (rotateSteps 16 count) (rotateSteps 16 count == 1) (topTwoOf m)
  | .cmp lhs rhs temp => ⟨[(temp, (subWords (x lhs) (x rhs)).1)], (subWords (x lhs) (x rhs)).2⟩
  | .mov dst src => ⟨[(dst, x src)], f⟩
  | .ldi reg imm => ⟨[(reg, imm)], f⟩

/-- DIV's two effects in the model are the two branches of `divisionEffect`. -/
theorem divisionEffect_applyTo (lhs rhs quotient temp zero : Reg) (s : State) :
    (divisionEffect s.reg lhs rhs quotient temp zero).applyTo s =
      if wordsEqual (s.reg rhs) (s.reg zero) then divByZeroEffect lhs s
      else divEffect lhs rhs quotient temp zero s := by
  unfold divisionEffect
  split <;> rfl

/-- Every command is its domain checks, then its effect (60_exceptions.md R203). -/
theorem exec_eq_guarded (i : Instr) (s : State) :
    exec i s = guarded i s ((commandEffect i s.reg s.flags).applyTo s) := by
  cases i with
  | div lhs rhs quotient temp zero => rw [commandEffect, divisionEffect_applyTo]; rfl
  | _ => rfl

/-- When a command completes, and the state it then leaves. -/
theorem exec_eq_next_iff {i : Instr} {s t : State} :
    exec i s = .next t ↔ InDomain i s ∧ (commandEffect i s.reg s.flags).applyTo s = t := by
  rw [exec_eq_guarded, guarded_eq_next, and_assoc]

/-! ### Which registers an effect writes and reads -/

/-- DIV writes `lhs`, and unless the divisor is zero its two scratch registers (R152, R153). -/
theorem divisionEffect_writes_subset (x : Reg → Word) (lhs rhs quotient temp zero : Reg) :
    (divisionEffect x lhs rhs quotient temp zero).writes.map Prod.fst ⊆ [lhs, quotient, temp] := by
  unfold divisionEffect
  split <;> simp

/-- A command writes no register but those of R23's table. -/
theorem writes_subset_writtenRegs (i : Instr) (x : Reg → Word) (f : Flags) :
    (commandEffect i x f).writes.map Prod.fst ⊆ writtenRegs i := by
  cases i with
  | div lhs rhs quotient temp zero => exact divisionEffect_writes_subset x lhs rhs quotient temp zero
  | _ => exact List.Subset.refl _

theorem zeroOperand_mem_readRegs {i : Instr} {z : Reg} (h : zeroOperand i = some z) : z ∈ readRegs i := by
  cases i <;> simp_all [zeroOperand, readRegs]

/-- The check of the `zero` operand looks at no register but those the command reads (R226). -/
theorem zeroOperandHolds_congr {i : Instr} {s s' : State} (h : ∀ r ∈ readRegs i, s.reg r = s'.reg r) :
    zeroOperandHolds i s = zeroOperandHolds i s' := by
  unfold zeroOperandHolds
  split
  next z hz => rw [h z (zeroOperand_mem_readRegs hz)]
  next => rfl

theorem inDomain_congr {i : Instr} {s s' : State} (h : ∀ r ∈ readRegs i, s.reg r = s'.reg r) :
    InDomain i s ↔ InDomain i s' := by
  rw [InDomain, InDomain, zeroOperandHolds_congr h]

/-- The effect depends on no register but those the command reads (R23). -/
theorem commandEffect_congr {i : Instr} {x x' : Reg → Word} (f : Flags) (h : ∀ r ∈ readRegs i, x r = x' r) :
    commandEffect i x f = commandEffect i x' f := by
  cases i with
  | div lhs rhs quotient temp zero => simp_all [readRegs, commandEffect, divisionEffect]
  | shl | shr | sar | rol | ror => simp_all [readRegs, commandEffect, moveEffect]
  | _ => simp_all [readRegs, commandEffect]

/-! ### Which flags an effect reads -/

/-- One iteration of MUL's loop forgets the flags it started from: its shift writes all four. -/
theorem mulIteration_ignores_flags (bit : Bool) (acc shifted : Word) (f g : Flags) :
    mulShift (mulAccumulate bit ⟨acc, shifted, f⟩) = mulShift (mulAccumulate bit ⟨acc, shifted, g⟩) := by
  cases bit <;> rfl

/-- MUL's loop, run at least once, forgets the flags it started from. -/
theorem mulLoop_ignores_flags (q acc shifted : Word) (f g : Flags) (k : Nat) :
    mulLoop q ⟨acc, shifted, f⟩ (k + 1) = mulLoop q ⟨acc, shifted, g⟩ (k + 1) := by
  induction k with
  | zero => exact mulIteration_ignores_flags _ acc shifted f g
  | succ k ih => rw [mulLoop, ih, ← mulLoop]

/-- No register write depends on a flag, and of the flags at the start exactly those of R28 are kept (R29). -/
theorem commandEffect_withFlags (i : Instr) (x : Reg → Word) (f g : Flags) :
    commandEffect i x f =
      ⟨(commandEffect i x g).writes, flagsAfter i f (commandEffect i x g).flags⟩ := by
  cases i with
  | mul lhs rhs temp zero =>
    simp only [commandEffect, flagsAfter, mulLoop_ignores_flags (x rhs) 0#16 (x lhs) f g 15]
  | _ => rfl

/-! ### ZF and SF together -/

/-- The flags' ZF and SF are those of the value `v` (R27). -/
def ZeroSignOf {n : Nat} (f : Flags) (v : BitVec n) : Prop := f.zf = isZero v ∧ f.sf = v.msb

/-- The ZF and SF of one value are never both 1: the all-zero pattern has no sign bit (R32). -/
theorem ZeroSignOf.not_zf_and_sf {n : Nat} {f : Flags} {v : BitVec n} (h : ZeroSignOf f v) :
    ¬(f.zf = true ∧ f.sf = true) := by
  obtain ⟨hzf, hsf⟩ := h
  rintro ⟨hz, hs⟩
  have hv : v = 0#n := by simpa [hzf] using hz
  simp [hsf, hv] at hs

/-- The flags of a subtraction are those of its difference, also when CF and OF are overwritten after it. -/
theorem zeroSignOf_subWords {n : Nat} (a b : BitVec n) (cf of : Bool) :
    ZeroSignOf { (subWords a b).2 with cf := cf, of := of } (subWords a b).1 := ⟨rfl, rfl⟩

/-- MUL's loop, run at least once, leaves the ZF and SF of its last shift's internal CMP (R151). -/
theorem zeroSignOf_mulLoop (q : Word) (m : MulWork) (k : Nat) :
    ∃ v : Word, ZeroSignOf (mulLoop q m (k + 1)).flags v := ⟨_, zeroSignOf_subWords _ 0#16 _ _⟩

/-- DIV leaves the ZF and SF of a value: zero for a zero divisor, else the quotient compared to `zero`. -/
theorem zeroSignOf_divisionEffect (x : Reg → Word) (lhs rhs quotient temp zero : Reg) :
    ∃ v : Word, ZeroSignOf (divisionEffect x lhs rhs quotient temp zero).flags v := by
  unfold divisionEffect
  split
  · exact ⟨0#16, rfl, rfl⟩
  · exact ⟨_, zeroSignOf_subWords _ _ _ _⟩

/-- A command leaves the ZF and SF of one value, or writes no flag at all (R27, R28). -/
theorem zeroSignOf_commandEffect (i : Instr) (x : Reg → Word) (f : Flags) :
    (∃ v : Word, ZeroSignOf (commandEffect i x f).flags v) ∨ (commandEffect i x f).flags = f := by
  cases i with
  | mov dst src => exact .inr rfl
  | ldi reg imm => exact .inr rfl
  | mul lhs rhs temp zero => exact .inl (zeroSignOf_mulLoop _ _ 15)
  | div lhs rhs quotient temp zero => exact .inl (zeroSignOf_divisionEffect x lhs rhs quotient temp zero)
  | _ => exact .inl ⟨_, rfl, rfl⟩

/-- A command that completes keeps the flags free of ZF = 1 with SF = 1 (R32). -/
theorem exec_keeps_flagsConsistent {i : Instr} {s t : State} (hs : FlagsConsistent s)
    (h : exec i s = .next t) : FlagsConsistent t := by
  obtain ⟨-, rfl⟩ := exec_eq_next_iff.mp h
  rcases zeroSignOf_commandEffect i s.reg s.flags with ⟨v, hv⟩ | hkept
  · exact hv.not_zf_and_sf
  · rwa [FlagsConsistent, applyTo_flags, hkept]

theorem reset_flagsConsistent : FlagsConsistent State.reset := by
  simp [FlagsConsistent]

/-! ### The packed flags -/

/-- The layout of the flag read port, bit 0 first (R32, R45). -/
theorem getLsbD_readFlags (s : State) (j : Nat) (hj : j < 4) :
    s.readFlags.getLsbD j = [s.flags.cf, s.flags.zf, s.flags.sf, s.flags.of][j] := by
  change @BitVec.getLsbD (1 + 1 + 1 + 1) (_ ++ _ ++ _ ++ _) j = _
  simp only [BitVec.getLsbD_append]
  interval_cases j <;> simp

end Sys2Proof.Machine

namespace Sys2Proof.Proofs

open Sys2Proof.Machine

/-- Settles O41: the cases of a step, each of which leaves the flags alone, resets them, or runs a command. -/
theorem everyStepKeepsFlagsConsistent : Obligations.EveryStepKeepsFlagsConsistent := by
  intro s t hs h
  rcases step_cases h with ⟨-, rfl⟩ | ⟨later, -, rfl⟩ | ⟨w, later, i, -, -, hexec⟩
  · exact hs
  · exact reset_flagsConsistent
  · exact exec_keeps_flagsConsistent (s := { s with port := later }) hs hexec

/-- Settles O36: a register outside `writtenRegs` is in no write of the command's effect. -/
theorem onlyWrittenRegistersChange : Obligations.OnlyWrittenRegistersChange := by
  intro i s t h
  obtain ⟨-, rfl⟩ := exec_eq_next_iff.mp h
  exact ⟨fun r hr => setRegs_reg_of_notMem s _ fun hw => hr (writes_subset_writtenRegs i _ _ hw),
    applyTo_port _ s⟩

/-- Settles O38, from the effect of the command started with other flags. -/
theorem noCommandReadsAFlag : Obligations.NoCommandReadsAFlag := by
  intro i s t f h
  obtain ⟨hdom, rfl⟩ := exec_eq_next_iff.mp h
  refine exec_eq_next_iff.mpr ⟨(inDomain_congr fun r _ => (setFlags_reg s r f).symm).mp hdom, ?_⟩
  calc (commandEffect i s.reg f).applyTo (s.setFlags f)
      = (commandEffect i s.reg f).applyTo s := applyTo_setFlags _ s f
    _ = _ := by rw [commandEffect_withFlags i s.reg f s.flags]; rfl

/-- Settles O39: the effect is the same from both states; a register it writes gets one value, and any other
keeps the value found there. -/
theorem onlyReadRegistersMatter : Obligations.OnlyReadRegistersMatter := by
  intro i s s' t hreads hflags h
  obtain ⟨hdom, rfl⟩ := exec_eq_next_iff.mp h
  have heffect : commandEffect i s'.reg s'.flags = commandEffect i s.reg s.flags := by
    rw [← hflags, commandEffect_congr s.flags hreads]
  refine ⟨_, exec_eq_next_iff.mpr ⟨(inDomain_congr hreads).mp hdom, rfl⟩, ?_, fun r _ => ?_⟩
  · rw [applyTo_flags, applyTo_flags, heffect]
  · simp only [applyTo_reg, heffect]
    by_cases hw : r ∈ (commandEffect i s.reg s.flags).writes.map Prod.fst
    · exact .inl (setRegs_reg_eq_of_mem s' s _ hw)
    · exact .inr ⟨setRegs_reg_of_notMem s _ hw, setRegs_reg_of_notMem s' _ hw⟩

/-- Settles O9, from what `takeInput` answers on an empty and on a non-empty list. -/
theorem idleStepAndConcurrentUse : Obligations.IdleStepAndConcurrentUse := by
  refine ⟨fun s hidle => ?_, fun s w₁ w₂ later hport => ?_⟩
  · rw [step, takeInput_nil s hidle]
  · rw [step, takeInput_cons s hport]

/-- Settles O10. -/
theorem resetRegistersAreZero : Obligations.ResetRegistersAreZero := reset_reg

/-- Settles O11. -/
theorem resetFlagsAreClear : Obligations.ResetFlagsAreClear := ⟨reset_flags, reset_port⟩

/-- Settles O42, the base case of the invariant of O41. -/
theorem resetFlagsConsistent : Obligations.ResetFlagsConsistent := reset_flagsConsistent

/-- Settles O56, bit by bit. -/
theorem readPortsReturnTheState : Obligations.ReadPortsReturnTheState := fun s =>
  ⟨getLsbD_readFlags s 0 (by decide), getLsbD_readFlags s 1 (by decide), getLsbD_readFlags s 2 (by decide),
    getLsbD_readFlags s 3 (by decide), readReg_eq s⟩

end Sys2Proof.Proofs

namespace Sys2Proof.Machine

/-!
The inputs still to come. What a step does with each kind of next input, and that a command carries the rest of
the host's list along without looking at it (20_memory.md R43, R46, R47).
-/

/-! ### The step on a given next input -/

/-- A step on the reset input (R46). -/
theorem step_of_reset {s : State} {later : List HostInput} (hport : s.port = .reset :: later) :
    step s = .next { State.reset with port := later } := by
  rw [step, takeInput_cons s hport]
  rfl

/-- A step on a word that decodes to a command (R43, 30_encoding.md R69). -/
theorem step_of_command {s : State} {w : CmdWord} {later : List HostInput} {i : Instr}
    (hport : s.port = .command w :: later) (hdecode : decode w = .command i) :
    step s = exec i { s with port := later } := by
  simp only [step, takeInput_cons s hport, hdecode]

/-- At 32 bits, `withFetchWord` presents the very word its number stands for. -/
@[simp] theorem withFetchWord_toNat (s : State) (w : CmdWord) :
    s.withFetchWord 32 w.toNat = s.presentNext w := by
  rw [State.withFetchWord, Nat.mod_eq_of_lt w.isLt, BitVec.ofNat_toNat, BitVec.setWidth_eq]

/-! ### A command with another list of inputs to come -/

theorem setRegs_setPort (s : State) (p : List HostInput) (ws : List (Reg × Word)) :
    ({ s with port := p } : State).setRegs ws = { s.setRegs ws with port := p } := by
  induction ws generalizing s with
  | nil => rfl
  | cons w ws ih => exact ih (s.setReg w.1 w.2)

theorem applyTo_setPort (e : Effect) (s : State) (p : List HostInput) :
    e.applyTo { s with port := p } = { e.applyTo s with port := p } := by
  rw [Effect.applyTo, setRegs_setPort]
  rfl

/-- A command that completes leaves the inputs to come as they are. -/
theorem exec_port {i : Instr} {s t : State} (h : exec i s = .next t) : t.port = s.port := by
  obtain ⟨-, rfl⟩ := exec_eq_next_iff.mp h
  exact applyTo_port _ s

/-- A command that completes does the same whatever the inputs to come are: neither its domain checks nor its
effect looks at them. -/
theorem exec_setPort {i : Instr} {s t : State} (p : List HostInput) (h : exec i s = .next t) :
    exec i { s with port := p } = .next { t with port := p } := by
  obtain ⟨hdom, rfl⟩ := exec_eq_next_iff.mp h
  exact exec_eq_next_iff.mpr
    ⟨(inDomain_congr fun r _ => (setPort_reg s r p).symm).mp hdom, applyTo_setPort _ s p⟩

end Sys2Proof.Machine

namespace Sys2Proof.Proofs

open Sys2Proof.Machine

/-- Settles O12: of the cases of a step, an idle one has no next input, a reset one does not look at the list, and
a command carries it along. -/
theorem stepIgnoresLaterInputs : Obligations.StepIgnoresLaterInputs := by
  intro s t input later later' hport hstep
  rcases step_cases hstep with ⟨hidle, -⟩ | ⟨rest, hreset, rfl⟩ | ⟨w, rest, i, hcommand, hdecode, hexec⟩
  · simp [hport] at hidle
  · obtain ⟨rfl, rfl⟩ : input = .reset ∧ later = rest := by simpa [hport] using hreset
    exact ⟨rfl, step_of_reset rfl⟩
  · obtain ⟨rfl, rfl⟩ : input = .command w ∧ later = rest := by simpa [hport] using hcommand
    refine ⟨exec_port hexec, ?_⟩
    rw [step_of_command rfl hdecode]
    exact exec_setPort (s := { s with port := later }) later' hexec

/-- Settles O6: `withFetchWord` presents the word as the next input, which the step then takes off the list. -/
theorem stepRunsDecodedCommand : Obligations.StepRunsDecodedCommand := by
  refine ⟨fun s w later i hport hdecode => step_of_command hport hdecode, fun s w i hdecode => ?_⟩
  rw [withFetchWord_toNat]
  exact step_of_command (presentNext_port s w) hdecode

end Sys2Proof.Proofs

namespace Sys2Proof.Laws

/-!
The command word, said once. Every command opcode has a row in the table of R67, its must-be-zero bits are one bit
range, and the decoder answers the command in the word's fields exactly when that range is zero
(`decode_eq_command_iff`). The row is hit under the same condition (`rowAt_hits_iff`). The statements about the
decoder follow from these two.
-/

/-! ### Bit ranges of a word -/

/-- The bits of a range inside an all-zero range are zero. -/
theorem extractLsb'_eq_zero_of_le {w : CmdWord} {len lo n : Nat} (h : w.extractLsb' 0 len = 0#len)
    (hle : lo + n ≤ len) : w.extractLsb' lo n = 0#n := by
  have hsub : w.extractLsb' lo n = (w.extractLsb' 0 len).extractLsb' lo n := by
    refine BitVec.eq_of_getLsbD_eq fun j hj => ?_
    have hlen : lo + j < len := by omega
    simp [hj, hlen]
  simp [hsub, h]

theorem regField_eq_zero {w : CmdWord} {len lo : Nat} (h : w.extractLsb' 0 len = 0#len) (hle : lo + 4 ≤ len) :
    regField w lo = 0 := by
  simp [regField, extractLsb'_eq_zero_of_le h hle]

/-- A register field carries its register. -/
@[simp] theorem regBits_regField (w : CmdWord) (lo : Nat) : regBits (regField w lo) = w.extractLsb' lo 4 := by
  refine BitVec.eq_of_toNat_eq ?_
  have hlt := (w.extractLsb' lo 4).isLt
  simp only [regBits, regField, Fin.val_ofNat, BitVec.toNat_ofNat]
  omega

section fields

variable {w : CmdWord} {op : BitVec 4}

/-- A word of format R is made of its fields (R61). -/
theorem formatR_five (hop : opField w = op) (hz : w.extractLsb' 0 8 = 0#8) :
    formatR op (fieldA w) (fieldB w) (fieldC w) (fieldD w) (fieldE w) = w := by
  refine eq_of_bits fun j hj => ?_
  have hlow : j < 8 → w.getLsbD j = false := fun h8 => by
    simpa [h8] using congrArg (·.getLsbD j) hz
  simp only [← hop, getLsbD_formatR, fieldA, fieldB, fieldC, fieldD, fieldE, opField, regBits_regField,
    BitVec.getLsbD_extractLsb']
  split_ifs <;> grind

/-! A command with fewer register operands has its unused register fields among the must-be-zero bits (R68). -/

theorem formatR_four (hop : opField w = op) (hz : w.extractLsb' 0 12 = 0#12) :
    formatR op (fieldA w) (fieldB w) (fieldC w) (fieldD w) 0 = w := by
  have h := formatR_five hop (extractLsb'_eq_zero_of_le hz (by decide))
  rwa [fieldE, regField_eq_zero hz (by decide)] at h

theorem formatR_three (hop : opField w = op) (hz : w.extractLsb' 0 16 = 0#16) :
    formatR op (fieldA w) (fieldB w) (fieldC w) 0 0 = w := by
  have h := formatR_four hop (extractLsb'_eq_zero_of_le hz (by decide))
  rwa [fieldD, regField_eq_zero hz (by decide)] at h

theorem formatR_two (hop : opField w = op) (hz : w.extractLsb' 0 20 = 0#20) :
    formatR op (fieldA w) (fieldB w) 0 0 0 = w := by
  have h := formatR_three hop (extractLsb'_eq_zero_of_le hz (by decide))
  rwa [fieldC, regField_eq_zero hz (by decide)] at h

theorem formatR_one (hop : opField w = op) (hz : w.extractLsb' 0 24 = 0#24) :
    formatR op (fieldA w) 0 0 0 0 = w := by
  have h := formatR_two hop (extractLsb'_eq_zero_of_le hz (by decide))
  rwa [fieldB, regField_eq_zero hz (by decide)] at h

/-- A word of format S is made of its fields (R62). -/
theorem formatS_fields (hop : opField w = op) :
    formatS op (fieldA w) (fieldB w) (fieldC w) (countField w) = w := by
  refine eq_of_bits fun j hj => ?_
  simp only [← hop, getLsbD_formatS, fieldA, fieldB, fieldC, opField, countField, lowHalf, regBits_regField,
    BitVec.getLsbD_extractLsb', BitVec.ofNat_toNat, BitVec.setWidth_eq]
  split_ifs <;> grind

/-- A word of format I is made of its fields (R63). -/
theorem formatI_fields (hop : opField w = op) (hz : w.extractLsb' 16 8 = 0#8) :
    formatI op (fieldA w) (lowHalf w) = w := by
  refine eq_of_bits fun j hj => ?_
  have hmid : 16 ≤ j → j < 24 → w.getLsbD j = false := fun h16 h24 => by
    have := congrArg (·.getLsbD (j - 16)) hz
    grind
  simp only [← hop, getLsbD_formatI, fieldA, opField, lowHalf, regBits_regField, BitVec.getLsbD_extractLsb']
  split_ifs <;> grind

end fields

/-! ### The fields of an encoded word -/

/-- A register field is known from its four bits. -/
theorem regField_of_bits {w : CmdWord} {lo : Nat} {r : Reg}
    (h : ∀ j < 4, w.getLsbD (lo + j) = (regBits r).getLsbD j) : regField w lo = r := by
  have hbits : w.extractLsb' lo 4 = regBits r :=
    BitVec.eq_of_getLsbD_eq fun j hj => by simpa [hj] using h j hj
  ext
  simp only [regField, hbits, regBits, BitVec.toNat_ofNat, Fin.val_ofNat]
  omega

section formats

variable (op : BitVec 4) (a b c d e : Reg) (n : Nat) (imm : Word)

@[simp] theorem fieldA_formatR : fieldA (formatR op a b c d e) = a :=
  regField_of_bits fun j hj => by grind [getLsbD_formatR]
@[simp] theorem fieldB_formatR : fieldB (formatR op a b c d e) = b :=
  regField_of_bits fun j hj => by grind [getLsbD_formatR]
@[simp] theorem fieldC_formatR : fieldC (formatR op a b c d e) = c :=
  regField_of_bits fun j hj => by grind [getLsbD_formatR]
@[simp] theorem fieldD_formatR : fieldD (formatR op a b c d e) = d :=
  regField_of_bits fun j hj => by grind [getLsbD_formatR]
@[simp] theorem fieldE_formatR : fieldE (formatR op a b c d e) = e :=
  regField_of_bits fun j hj => by grind [getLsbD_formatR]

@[simp] theorem fieldA_formatS : fieldA (formatS op a b c n) = a :=
  regField_of_bits fun j hj => by grind [getLsbD_formatS]
@[simp] theorem fieldB_formatS : fieldB (formatS op a b c n) = b :=
  regField_of_bits fun j hj => by grind [getLsbD_formatS]
@[simp] theorem fieldC_formatS : fieldC (formatS op a b c n) = c :=
  regField_of_bits fun j hj => by grind [getLsbD_formatS]

/-- The count field holds any count that is in range (R64). -/
theorem countField_formatS (hn : n < 2 ^ Config.countWidth) : countField (formatS op a b c n) = n := by
  have hlow : lowHalf (formatS op a b c n) = BitVec.ofNat 16 n :=
    BitVec.eq_of_getLsbD_eq fun j hj => by
      simp [lowHalf, getLsbD_formatS, hj]
  rw [countField, hlow, BitVec.toNat_ofNat, Nat.mod_eq_of_lt hn]

@[simp] theorem fieldA_formatI : fieldA (formatI op a imm) = a :=
  regField_of_bits fun j hj => by grind [getLsbD_formatI]

@[simp] theorem lowHalf_formatI : lowHalf (formatI op a imm) = imm :=
  BitVec.eq_of_getLsbD_eq fun j hj => by
    simp [lowHalf, getLsbD_formatI, hj]

end formats

/-! ### The rows of the table -/

/-- The row of the `k`-th command of R67. The rows stand in the order of the opcodes. -/
def rowAt (k : Fin 15) : MatchRow := matchTable[k]

/-- The opcode of the `k`-th command (R66): 0x0 is reserved, so the first command has 0x1. -/
def opcodeAt (k : Fin 15) : BitVec 4 := BitVec.ofNat 4 (k.val + 1)

/-- The must-be-zero bits of the `k`-th command (R68): the lowest bit of the range, and its length. -/
def zeroRange : Fin 15 → Nat × Nat
  | 0 | 1 | 13 => (0, 20)
  | 2 => (0, 12)
  | 3 => (0, 8)
  | 4 | 5 => (0, 24)
  | 6 | 12 => (0, 16)
  | 7 | 8 | 9 | 10 | 11 => (0, 0)
  | 14 => (16, 8)

/-- The `k`-th command with its operands in the fields of `w` (R70). -/
def commandAt (w : CmdWord) : Fin 15 → Instr
  | 0 => .add (fieldA w) (fieldB w)
  | 1 => .sub (fieldA w) (fieldB w)
  | 2 => .mul (fieldA w) (fieldB w) (fieldC w) (fieldD w)
  | 3 => .div (fieldA w) (fieldB w) (fieldC w) (fieldD w) (fieldE w)
  | 4 => .inc (fieldA w)
  | 5 => .dec (fieldA w)
  | 6 => .neg (fieldA w) (fieldB w) (fieldC w)
  | 7 => .shl (fieldA w) (countField w) (fieldB w) (fieldC w)
  | 8 => .shr (fieldA w) (countField w) (fieldB w) (fieldC w)
  | 9 => .sar (fieldA w) (countField w) (fieldB w) (fieldC w)
  | 10 => .rol (fieldA w) (countField w) (fieldB w) (fieldC w)
  | 11 => .ror (fieldA w) (countField w) (fieldB w) (fieldC w)
  | 12 => .cmp (fieldA w) (fieldB w) (fieldC w)
  | 13 => .mov (fieldA w) (fieldB w)
  | 14 => .ldi (fieldA w) (lowHalf w)

/-- The word has the `k`-th command's opcode, and its must-be-zero bits are zero. -/
def CarriesCommand (w : CmdWord) (k : Fin 15) : Prop :=
  opField w = opcodeAt k ∧ w.extractLsb' (zeroRange k).1 (zeroRange k).2 = 0#(zeroRange k).2

theorem mem_matchTable_iff {row : MatchRow} : row ∈ matchTable ↔ ∃ k, row = rowAt k := by
  rw [List.mem_iff_get]
  exact exists_congr fun k => eq_comm

theorem opcodeAt_injective : Function.Injective opcodeAt := by
  unfold Function.Injective; decide

theorem opcodeAt_ne_zero (k : Fin 15) : opcodeAt k ≠ 0#4 := by
  revert k; decide

/-- Every opcode but 0x0 is a command's. -/
theorem exists_opcodeAt {op : BitVec 4} (h : op ≠ 0#4) : ∃ k, op = opcodeAt k := by
  revert op; decide

theorem rowAt_mnemonic_injective : Function.Injective fun k => (rowAt k).mnemonic := by
  unfold Function.Injective; decide

theorem commandAt_mnemonic (w : CmdWord) (k : Fin 15) : (commandAt w k).mnemonic = (rowAt k).mnemonic := by
  fin_cases k <;> rfl

/-! ### What the decoder answers -/

theorem requireZero_empty (w : CmdWord) (lo : Nat) (i : Instr) : requireZero w lo 0 i = .command i := by
  simp [requireZero]

theorem requireZero_eq_command_iff {w : CmdWord} {lo len : Nat} {i j : Instr} :
    requireZero w lo len i = .command j ↔ w.extractLsb' lo len = 0#len ∧ i = j := by
  unfold requireZero
  split <;> simp_all

theorem requireZero_eq_invalid_iff {w : CmdWord} {lo len : Nat} {i : Instr} {why : InvalidWord} :
    requireZero w lo len i = .invalid why ↔ w.extractLsb' lo len ≠ 0#len ∧ why = .mustBeZeroBitSet := by
  unfold requireZero
  split <;> simp_all [eq_comm]

/-- The decoder on a command opcode: the command in the fields, if the must-be-zero bits are zero. -/
theorem decode_of_opcode {w : CmdWord} {k : Fin 15} (h : opField w = opcodeAt k) :
    decode w = requireZero w (zeroRange k).1 (zeroRange k).2 (commandAt w k) := by
  unfold decode
  rw [h]
  match k with
  | 7 | 8 | 9 | 10 | 11 => exact (requireZero_empty w 0 _).symm
  | 0 | 1 | 2 | 3 | 4 | 5 | 6 | 12 | 13 | 14 => rfl

theorem decode_of_opcode_zero {w : CmdWord} (h : opField w = 0#4) : decode w = .invalid .reservedOpcode := by
  unfold decode
  rw [h]
  rfl

/-- A word with a command opcode carries that command or none. -/
theorem carriesCommand_iff_of_opcode {w : CmdWord} {k j : Fin 15} (h : opField w = opcodeAt k) :
    CarriesCommand w j ↔ j = k ∧ w.extractLsb' (zeroRange k).1 (zeroRange k).2 = 0#(zeroRange k).2 := by
  rw [CarriesCommand, h, opcodeAt_injective.eq_iff, eq_comm]
  exact and_congr_right fun hj => hj ▸ Iff.rfl

theorem not_carriesCommand_of_opcode_zero {w : CmdWord} (h : opField w = 0#4) (k : Fin 15) :
    ¬CarriesCommand w k := fun hk => opcodeAt_ne_zero k (hk.1.symm.trans h)

/-- The words that decode to a command, and the command (R70). -/
theorem decode_eq_command_iff {w : CmdWord} {i : Instr} :
    decode w = .command i ↔ ∃ k, CarriesCommand w k ∧ commandAt w k = i := by
  by_cases hop : opField w = 0#4
  · simp [decode_of_opcode_zero hop, not_carriesCommand_of_opcode_zero hop]
  · obtain ⟨k, hk⟩ := exists_opcodeAt hop
    simp [decode_of_opcode hk, requireZero_eq_command_iff, carriesCommand_iff_of_opcode hk, and_assoc]

/-- The words that decode to no command, and the reason (R69). -/
theorem decode_eq_invalid_iff {w : CmdWord} {why : InvalidWord} :
    decode w = .invalid why ↔
      (opField w = 0#4 ∧ why = .reservedOpcode) ∨
      (opField w ≠ 0#4 ∧ (∀ k, ¬CarriesCommand w k) ∧ why = .mustBeZeroBitSet) := by
  by_cases hop : opField w = 0#4
  · simp [decode_of_opcode_zero hop, hop, eq_comm]
  · obtain ⟨k, hk⟩ := exists_opcodeAt hop
    simp [decode_of_opcode hk, requireZero_eq_invalid_iff, carriesCommand_iff_of_opcode hk, hop]

/-! ### When a row is hit -/

/-- The word with ones in the range of `len` bits from bit `lo` up, and zeros elsewhere. -/
def rangeMask (lo len : Nat) : CmdWord := (BitVec.allOnes len).setWidth 32 <<< lo

theorem getLsbD_rangeMask {lo len j : Nat} (hj : j < 32) :
    (rangeMask lo len).getLsbD j = decide (lo ≤ j ∧ j < lo + len) := by
  simp only [rangeMask, BitVec.getLsbD_shiftLeft, BitVec.getLsbD_setWidth, BitVec.getLsbD_allOnes]
  grind

/-- A row's match is its opcode, and its mask covers the opcode and the must-be-zero bits (R67). -/
theorem rowAt_bits (k : Fin 15) :
    (rowAt k).matchBits = opcodeAt k ++ 0#28 ∧
    (rowAt k).maskBits = rangeMask 28 4 ||| rangeMask (zeroRange k).1 (zeroRange k).2 := by
  revert k; decide

theorem zeroRange_le (k : Fin 15) : (zeroRange k).1 + (zeroRange k).2 ≤ 28 := by
  revert k; decide

/-- The opcode and one range below it, compared bit by bit through a mask. -/
theorem and_rangeMask_eq_iff {w : CmdWord} {op : BitVec 4} {lo len : Nat} (hle : lo + len ≤ 28) :
    w &&& (rangeMask 28 4 ||| rangeMask lo len) = op ++ 0#28 ↔
      opField w = op ∧ w.extractLsb' lo len = 0#len := by
  have hmask : ∀ j < 32, (w &&& (rangeMask 28 4 ||| rangeMask lo len)).getLsbD j =
      (w.getLsbD j && (decide (28 ≤ j) || decide (lo ≤ j ∧ j < lo + len))) := fun j hj => by
    simp only [BitVec.getLsbD_and, BitVec.getLsbD_or, getLsbD_rangeMask hj]
    grind
  have hmatch : ∀ j, (op ++ 0#28 : CmdWord).getLsbD j = (decide (28 ≤ j) && op.getLsbD (j - 28)) := fun j => by
    simp only [BitVec.getLsbD_append]
    grind
  constructor
  · intro h
    have hbit : ∀ j < 32, (w.getLsbD j && (decide (28 ≤ j) || decide (lo ≤ j ∧ j < lo + len))) =
        (decide (28 ≤ j) && op.getLsbD (j - 28)) := fun j hj => by rw [← hmask j hj, h, hmatch]
    refine ⟨BitVec.eq_of_getLsbD_eq fun j hj => ?_, BitVec.eq_of_getLsbD_eq fun j hj => ?_⟩
    · simpa [opField, hj] using hbit (28 + j) (by omega)
    · have := hbit (lo + j) (by omega)
      grind
  · rintro ⟨rfl, hzero⟩
    refine eq_of_bits fun j hj => ?_
    have hlow : lo ≤ j → j < lo + len → w.getLsbD j = false := fun hlo hhi => by
      have := congrArg (·.getLsbD (j - lo)) hzero
      grind
    rw [hmask j hj, hmatch j, opField]
    grind

/-- A row is hit exactly by the words that carry its command (R67, R68). -/
theorem rowAt_hits_iff {w : CmdWord} {k : Fin 15} : (rowAt k).hits w = true ↔ CarriesCommand w k := by
  obtain ⟨hmatch, hmask⟩ := rowAt_bits k
  rw [MatchRow.hits, beq_iff_eq, hmatch, hmask, and_rangeMask_eq_iff (zeroRange_le k), CarriesCommand]

/-! ### A command's own row -/

/-- The place of a command's row in the table. -/
def rowIndex : Instr → Fin 15
  | .add _ _ => 0
  | .sub _ _ => 1
  | .mul _ _ _ _ => 2
  | .div _ _ _ _ _ => 3
  | .inc _ => 4
  | .dec _ => 5
  | .neg _ _ _ => 6
  | .shl _ _ _ _ => 7
  | .shr _ _ _ _ => 8
  | .sar _ _ _ _ => 9
  | .rol _ _ _ _ => 10
  | .ror _ _ _ _ => 11
  | .cmp _ _ _ => 12
  | .mov _ _ => 13
  | .ldi _ _ => 14

theorem rowAt_rowIndex_mnemonic (i : Instr) : (rowAt (rowIndex i)).mnemonic = i.mnemonic := by
  cases i <;> rfl

theorem encode_hits_own_row (i : Instr) : EncodedRow.Statement i := by
  cases i with
  | add => exact EncodedRow.add ..
  | sub => exact EncodedRow.sub ..
  | mul => exact EncodedRow.mul ..
  | div => exact EncodedRow.div ..
  | inc => exact EncodedRow.inc ..
  | dec => exact EncodedRow.dec ..
  | neg => exact EncodedRow.neg ..
  | shl => exact EncodedRow.shl ..
  | shr => exact EncodedRow.shr ..
  | sar => exact EncodedRow.sar ..
  | rol => exact EncodedRow.rol ..
  | ror => exact EncodedRow.ror ..
  | cmp => exact EncodedRow.cmp ..
  | mov => exact EncodedRow.mov ..
  | ldi => exact EncodedRow.ldi ..

/-- The word of a command has the command's opcode and its must-be-zero bits zero. -/
theorem encode_carriesCommand (i : Instr) : CarriesCommand (encode i) (rowIndex i) := by
  obtain ⟨row, hmem, hname, hhits⟩ := encode_hits_own_row i
  obtain ⟨k, rfl⟩ := mem_matchTable_iff.mp hmem
  have hk : k = rowIndex i := rowAt_mnemonic_injective (hname.trans (rowAt_rowIndex_mnemonic i).symm)
  exact hk ▸ rowAt_hits_iff.mp hhits

/-- The fields of the word of a command are the command's operands; a count has to be in range for that (R64). -/
theorem commandAt_encode {i : Instr} (hi : i.WellFormed) : commandAt (encode i) (rowIndex i) = i := by
  cases i with
  | shl | shr | sar | rol | ror =>
    simp_all [Instr.WellFormed, Instr.wellFormed, Instr.count?, rowIndex, commandAt, encode, countField_formatS]
  | _ => simp [rowIndex, commandAt, encode]

/-- The command in the fields of a word has a count that is in range (R64). -/
theorem commandAt_wellFormed (w : CmdWord) (k : Fin 15) : (commandAt w k).WellFormed := by
  have hcount : countField w < 2 ^ Config.countWidth := (lowHalf w).isLt
  match k with
  | 7 | 8 | 9 | 10 | 11 => exact decide_eq_true hcount
  | 0 | 1 | 2 | 3 | 4 | 5 | 6 | 12 | 13 | 14 => rfl

/-- A word that carries a command is the command's word: the fields the command does not use are zero. -/
theorem encode_commandAt {w : CmdWord} {k : Fin 15} (h : CarriesCommand w k) : encode (commandAt w k) = w := by
  obtain ⟨hop, hzero⟩ := h
  match k with
  | 0 | 1 | 13 => exact formatR_two hop hzero
  | 2 => exact formatR_four hop hzero
  | 3 => exact formatR_five hop hzero
  | 4 | 5 => exact formatR_one hop hzero
  | 6 | 12 => exact formatR_three hop hzero
  | 7 | 8 | 9 | 10 | 11 => exact formatS_fields hop
  | 14 => exact formatI_fields hop hzero

end Sys2Proof.Laws

namespace Sys2Proof.Proofs

open Sys2Proof.Laws

/-- Settles O1: the word of a command carries that command, and the fields hold its operands. -/
theorem decodeOfEncode : Obligations.DecodeOfEncode := fun i hi =>
  decode_eq_command_iff.mpr ⟨rowIndex i, encode_carriesCommand i, commandAt_encode hi⟩

/-- Settles O2: the command a word carries is in its fields, and every other bit is fixed. -/
theorem encodeOfDecode : Obligations.EncodeOfDecode := by
  intro w i h
  obtain ⟨k, hcarries, rfl⟩ := decode_eq_command_iff.mp h
  exact ⟨commandAt_wellFormed w k, encode_commandAt hcarries⟩

/-- Settles O3: a row is hit, and a word decodes to a command of the row's name, when the word carries the row's
command; the names of the rows differ. -/
theorem decodeAgreesWithMatchTable : Obligations.DecodeAgreesWithMatchTable := by
  intro w row hrow
  obtain ⟨k, rfl⟩ := mem_matchTable_iff.mp hrow
  rw [rowAt_hits_iff]
  constructor
  · exact fun hcarries =>
      ⟨commandAt w k, decode_eq_command_iff.mpr ⟨k, hcarries, rfl⟩, commandAt_mnemonic w k⟩
  · rintro ⟨i, hdecode, hname⟩
    obtain ⟨k', hcarries, rfl⟩ := decode_eq_command_iff.mp hdecode
    have hk : k' = k := rowAt_mnemonic_injective ((commandAt_mnemonic w k').symm.trans hname)
    exact hk ▸ hcarries

/-- Settles O4: no row is hit exactly when the word carries no command. -/
theorem invalidWordsAreTheReservedOnes : Obligations.InvalidWordsAreTheReservedOnes := by
  intro w
  have hrows : (∀ row ∈ matchTable, row.hits w = false) ↔ ∀ k, ¬CarriesCommand w k := by
    simp [mem_matchTable_iff, ← rowAt_hits_iff]
  constructor
  · simp [decode_eq_invalid_iff, opField]
  · simp [decode_eq_invalid_iff, hrows, opField]

end Sys2Proof.Proofs

namespace Sys2Proof.Machine

open Sys2Proof.Laws

/-!
The text of a command, printed and read again (30_encoding.md R72, R73). The reader of numerals inverts the printer
of numerals, and the reader of a line cuts the printed text where the printer joined it: names and numerals are plain
text, and the printer puts a parenthesis or a comma between two of them.
-/

/-! ### Numerals -/

/-- A decimal digit has the value the library gives it. -/
theorem digitValue_of_isDigit {c : Char} (hc : c.isDigit = true) :
    digitValue c = some (c.toNat - '0'.toNat) ∧ c.toNat - '0'.toNat < 10 := by
  have hrange : '0' ≤ c ∧ c ≤ '9' := by
    simpa [Char.isDigit, Char.le_def] using hc
  have hle : c.toNat ≤ '9'.toNat := hrange.2
  refine ⟨by rw [digitValue, if_pos hrange], ?_⟩
  simp only [Char.reduceToNat] at hle ⊢
  omega

/-- On decimal digits the reader of numerals computes the library's value of a digit string. -/
theorem numeralFrom_of_isDigit {cs : List Char} (hcs : ∀ c ∈ cs, c.isDigit = true) (acc : Nat) :
    numeralFrom 10 acc cs = some (Nat.ofDigitChars 10 cs acc) := by
  induction cs generalizing acc with
  | nil => rfl
  | cons c cs ih =>
    obtain ⟨hc, hrest⟩ := List.forall_mem_cons.mp hcs
    obtain ⟨hvalue, hlt⟩ := digitValue_of_isDigit hc
    rw [numeralFrom, hvalue]
    simp only [hlt, if_true, ih hrest, Nat.ofDigitChars_cons, Nat.mul_comm]

theorem isDigit_of_mem_natText {n : Nat} {c : Char} (hc : c ∈ natText n) : c.isDigit = true :=
  Nat.isDigit_of_mem_toDigits (by decide) (by decide) hc

theorem numeral_natText (n : Nat) : numeral 10 (natText n) = some n := by
  have hvalue : numeralFrom 10 0 (natText n) = some n := by
    rw [numeralFrom_of_isDigit fun c => isDigit_of_mem_natText, natText, Nat.ofDigitChars_ten_toDigits]
  unfold numeral
  split
  next h => exact absurd h Nat.toDigits_ne_nil
  next => exact hvalue

/-- A numeral of decimal digits alone is read in base ten: no `0x` stands before it. -/
theorem countValue_of_isDigit {cs : List Char} (hcs : ∀ c ∈ cs, c.isDigit = true) :
    countValue cs = numeral 10 cs := by
  unfold countValue
  split
  next => simp at hcs
  next => rfl

/-- A literal of decimal digits alone is read in base ten: no `0x`, `0b` or minus sign stands before it. -/
theorem literalValue_of_isDigit {cs : List Char} (hcs : ∀ c ∈ cs, c.isDigit = true) :
    literalValue cs = (numeral 10 cs).map Int.ofNat := by
  unfold literalValue
  split
  next => simp at hcs
  next => simp at hcs
  next => simp at hcs
  next => rfl

/-! ### Operands -/

@[simp] theorem parseReg_regText (r : Reg) : parseReg (regText r) = some r := by
  revert r; decide

theorem parseCount_natText {n : Nat} (hn : n < 2 ^ Config.countWidth) : parseCount (natText n) = some n := by
  rw [parseCount, countValue_of_isDigit fun c => isDigit_of_mem_natText, numeral_natText]
  exact if_pos hn

@[simp] theorem parseLiteral_natText (imm : Word) : parseLiteral (natText imm.toNat) = some imm := by
  have hrange : -32768 ≤ Int.ofNat imm.toNat ∧ Int.ofNat imm.toNat ≤ 65535 := by
    have := imm.isLt
    simp only [Int.ofNat_eq_natCast]
    omega
  rw [parseLiteral, literalValue_of_isDigit fun c => isDigit_of_mem_natText, numeral_natText]
  simp only [Option.map_some, if_pos hrange]
  simp [wordOfInt]

/-! The arms of `parseCommand`, one for each name (R72). -/

section arms

variable (a b c d e n k : List Char)

theorem parseCommand_add : parseCommand "ADD".toList [a, b] = do
    return .add (← parseReg a) (← parseReg b) := rfl
theorem parseCommand_sub : parseCommand "SUB".toList [a, b] = do
    return .sub (← parseReg a) (← parseReg b) := rfl
theorem parseCommand_mul : parseCommand "MUL".toList [a, b, c, d] = do
    return .mul (← parseReg a) (← parseReg b) (← parseReg c) (← parseReg d) := rfl
theorem parseCommand_div : parseCommand "DIV".toList [a, b, c, d, e] = do
    return .div (← parseReg a) (← parseReg b) (← parseReg c) (← parseReg d) (← parseReg e) := rfl
theorem parseCommand_inc : parseCommand "INC".toList [a] = do
    return .inc (← parseReg a) := rfl
theorem parseCommand_dec : parseCommand "DEC".toList [a] = do
    return .dec (← parseReg a) := rfl
theorem parseCommand_neg : parseCommand "NEG".toList [a, b, c] = do
    return .neg (← parseReg a) (← parseReg b) (← parseReg c) := rfl
theorem parseCommand_shl : parseCommand "SHL".toList [a, n, b, c] = do
    return .shl (← parseReg a) (← parseCount n) (← parseReg b) (← parseReg c) := rfl
theorem parseCommand_shr : parseCommand "SHR".toList [a, n, b, c] = do
    return .shr (← parseReg a) (← parseCount n) (← parseReg b) (← parseReg c) := rfl
theorem parseCommand_sar : parseCommand "SAR".toList [a, n, b, c] = do
    return .sar (← parseReg a) (← parseCount n) (← parseReg b) (← parseReg c) := rfl
theorem parseCommand_rol : parseCommand "ROL".toList [a, n, b, c] = do
    return .rol (← parseReg a) (← parseCount n) (← parseReg b) (← parseReg c) := rfl
theorem parseCommand_ror : parseCommand "ROR".toList [a, n, b, c] = do
    return .ror (← parseReg a) (← parseCount n) (← parseReg b) (← parseReg c) := rfl
theorem parseCommand_cmp : parseCommand "CMP".toList [a, b, c] = do
    return .cmp (← parseReg a) (← parseReg b) (← parseReg c) := rfl
theorem parseCommand_mov : parseCommand "MOV".toList [a, b] = do
    return .mov (← parseReg a) (← parseReg b) := rfl
theorem parseCommand_ldi : parseCommand "LDI".toList [a, k] = do
    return .ldi (← parseReg a) (← parseLiteral k) := rfl

end arms

/-- The name and the operands of a command, as the printer writes them, are read as the command. -/
theorem parseCommand_operandTexts {i : Instr} (hi : i.WellFormed) :
    parseCommand i.mnemonic.toList (operandTexts i) = some i := by
  have hcount : ∀ n, decide (n < 2 ^ Config.countWidth) = true → parseCount (natText n) = some n :=
    fun n hn => parseCount_natText (of_decide_eq_true hn)
  cases i with
  | add => exact (parseCommand_add ..).trans (by simp)
  | sub => exact (parseCommand_sub ..).trans (by simp)
  | mul => exact (parseCommand_mul ..).trans (by simp)
  | div => exact (parseCommand_div ..).trans (by simp)
  | inc => exact (parseCommand_inc ..).trans (by simp)
  | dec => exact (parseCommand_dec ..).trans (by simp)
  | neg => exact (parseCommand_neg ..).trans (by simp)
  | shl => exact (parseCommand_shl ..).trans (by simp [hcount _ hi])
  | shr => exact (parseCommand_shr ..).trans (by simp [hcount _ hi])
  | sar => exact (parseCommand_sar ..).trans (by simp [hcount _ hi])
  | rol => exact (parseCommand_rol ..).trans (by simp [hcount _ hi])
  | ror => exact (parseCommand_ror ..).trans (by simp [hcount _ hi])
  | cmp => exact (parseCommand_cmp ..).trans (by simp)
  | mov => exact (parseCommand_mov ..).trans (by simp)
  | ldi => exact (parseCommand_ldi ..).trans (by simp)

/-! ### Tokens -/

/-- A character that is part of a name or a numeral: it separates nothing and starts no comment. -/
abbrev PlainChar (c : Char) : Prop := c ∉ ['(', ')', ',', ' ', '\t', '-']

/-- The text of a name or a numeral. -/
def PlainText (cs : List Char) : Prop := cs ≠ [] ∧ ∀ c ∈ cs, PlainChar c

theorem lexLine_cons_of_ne {c : Char} (hc : c ≠ '-') (cur rest : List Char) :
    lexLine cur (c :: rest) =
      if c == '(' then pendingName cur ++ .openParen :: lexLine [] rest
      else if c == ')' then pendingName cur ++ .closeParen :: lexLine [] rest
      else if c == ',' then pendingName cur ++ .comma :: lexLine [] rest
      else if c == ' ' || c == '\t' then pendingName cur ++ lexLine [] rest
      else lexLine (c :: cur) rest := by
  rw [lexLine]
  simp [hc]

theorem lexLine_cons_of_plain {c : Char} (hc : PlainChar c) (cur rest : List Char) :
    lexLine cur (c :: rest) = lexLine (c :: cur) rest := by
  simp only [PlainChar, List.mem_cons, not_or] at hc
  obtain ⟨hopen, hclose, hcomma, hblank, htab, hdash, -⟩ := hc
  simp [lexLine_cons_of_ne hdash, *]

/-- Plain text is collected, up to the character that ends it. -/
theorem lexLine_plain_append {cs : List Char} (hcs : ∀ c ∈ cs, PlainChar c) (cur rest : List Char) :
    lexLine cur (cs ++ rest) = lexLine (cs.reverse ++ cur) rest := by
  induction cs generalizing cur with
  | nil => rfl
  | cons c cs ih =>
    obtain ⟨hc, htail⟩ := List.forall_mem_cons.mp hcs
    rw [List.cons_append, lexLine_cons_of_plain hc, ih htail, List.reverse_cons, List.append_assoc]
    rfl

theorem pendingName_reverse {cs : List Char} (hcs : cs ≠ []) : pendingName cs.reverse = [.name cs] := by
  simp [pendingName, hcs]

theorem lexLine_plain_openParen {cs : List Char} (hcs : PlainText cs) (rest : List Char) :
    lexLine [] (cs ++ '(' :: rest) = .name cs :: .openParen :: lexLine [] rest := by
  obtain ⟨hne, hplain⟩ := hcs
  rw [lexLine_plain_append hplain, lexLine_cons_of_ne (by decide), List.append_nil, pendingName_reverse hne]
  rfl

theorem lexLine_plain_closeParen {cs : List Char} (hcs : PlainText cs) :
    lexLine [] (cs ++ [')']) = [.name cs, .closeParen] := by
  obtain ⟨hne, hplain⟩ := hcs
  rw [lexLine_plain_append hplain, lexLine_cons_of_ne (by decide), List.append_nil, pendingName_reverse hne]
  rfl

/-- The blank after a comma is skipped. -/
theorem lexLine_plain_comma {cs : List Char} (hcs : PlainText cs) (rest : List Char) :
    lexLine [] (cs ++ ',' :: ' ' :: rest) = .name cs :: .comma :: lexLine [] rest := by
  obtain ⟨hne, hplain⟩ := hcs
  rw [lexLine_plain_append hplain, lexLine_cons_of_ne (by decide), List.append_nil, pendingName_reverse hne,
    lexLine_cons_of_ne (by decide)]
  rfl

/-- A printed operand list is read as the operands it was printed from. -/
theorem operandList_lexLine {ops : List (List Char)} (hne : ops ≠ []) (hops : ∀ cs ∈ ops, PlainText cs) :
    operandList (lexLine [] ([',', ' '].intercalate ops ++ [')'])) = some ops := by
  induction ops with
  | nil => exact absurd rfl hne
  | cons a ops ih =>
    obtain ⟨ha, htail⟩ := List.forall_mem_cons.mp hops
    cases ops with
    | nil =>
      rw [List.intercalate_singleton, lexLine_plain_closeParen ha]
      rfl
    | cons b ops =>
      have hrest := ih (List.cons_ne_nil b ops) htail
      have hsplit : [',', ' '].intercalate (a :: b :: ops) ++ [')'] =
          a ++ ',' :: ' ' :: ([',', ' '].intercalate (b :: ops) ++ [')']) := by
        simp [List.intercalate]
      rw [hsplit, lexLine_plain_comma ha, operandList, hrest]
      rfl

/-! ### Lines -/

/-- A line in the call form is read as the command of its name and operands (R72). -/
theorem readLine_callText {name : String} {ops : List (List Char)} {i : Instr} (hname : PlainText name.toList)
    (hne : ops ≠ []) (hops : ∀ cs ∈ ops, PlainText cs) (hparse : parseCommand name.toList ops = some i) :
    readLine (callText name ops) = .command i := by
  have hlex : lexLine [] (callText name ops) =
      .name name.toList :: .openParen :: lexLine [] ([',', ' '].intercalate ops ++ [')']) := by
    rw [callText, List.append_assoc, List.append_assoc]
    exact lexLine_plain_openParen hname _
  simp [readLine, hlex, operandList_lexLine hne hops, hparse]

theorem plainChar_of_isDigit {c : Char} (hc : c.isDigit = true) : PlainChar c := by
  intro hmem
  fin_cases hmem <;> simp at hc

theorem plainText_natText (n : Nat) : PlainText (natText n) :=
  ⟨Nat.toDigits_ne_nil, fun _ hc => plainChar_of_isDigit (isDigit_of_mem_natText hc)⟩

theorem plainText_regText (r : Reg) : PlainText (regText r) := by
  refine ⟨List.cons_ne_nil _ _, List.forall_mem_cons.mpr ⟨by decide, ?_⟩⟩
  exact (plainText_natText r.val).2

theorem plainText_mnemonic (i : Instr) : PlainText i.mnemonic.toList := by
  cases i <;> simp [PlainText, PlainChar, Instr.mnemonic]

theorem operandTexts_ne_nil (i : Instr) : operandTexts i ≠ [] := by
  cases i <;> exact List.cons_ne_nil _ _

theorem plainText_of_mem_operandTexts (i : Instr) : ∀ cs ∈ operandTexts i, PlainText cs := by
  cases i <;> simp [operandTexts, plainText_regText, plainText_natText]

/-! ### The step on an invalid word -/

/-- A step on a word that decodes to no command (R69). -/
theorem step_of_invalid {s : State} {w : CmdWord} {later : List HostInput} {why : InvalidWord}
    (hport : s.port = .command w :: later) (hdecode : decode w = .invalid why) :
    step s = .refused .invalidCommandWord := by
  simp only [step, takeInput_cons s hport, hdecode]

end Sys2Proof.Machine

namespace Sys2Proof.Proofs

open Sys2Proof.Machine

/-- Settles O59: every part of the printed text is plain, so the reader cuts it where the printer joined it. -/
theorem readLineOfInstrText : Obligations.ReadLineOfInstrText := fun i hi =>
  readLine_callText (plainText_mnemonic i) (operandTexts_ne_nil i) (plainText_of_mem_operandTexts i)
    (parseCommand_operandTexts hi)

/-- Settles O5, by evaluating the decoder on the eight words. -/
theorem sampleWordsDecode : Obligations.SampleWordsDecode := by
  unfold Obligations.SampleWordsDecode
  decide

/-- Settles O7, from the step on a given next input. -/
theorem stepRefusesInvalidWord : Obligations.StepRefusesInvalidWord := fun _ _ _ _ => step_of_invalid

/-- Settles O60, by evaluating the reader on the seven lines. -/
theorem sampleLinesAssemble : Obligations.SampleLinesAssemble := by
  unfold Obligations.SampleLinesAssemble
  decide

end Sys2Proof.Proofs

namespace Sys2Proof.Machine

/-!
The arithmetic of the cells and of the chains made of them (40_bit_primitives.md R108 to R111, R114, R115), at every
width. Each cell has its integer reading; the ripple-carry chain has its sum, its carry out and the equation that ties
the two to the operands; the ripple-borrow chain is, cell by cell, the inverted adder chain.
-/

/-! ### The cells as integers -/

section cells

variable (x y c : Bool)

theorem halfAdder_reading :
    2 * (halfAdder x y).2.toNat + (halfAdder x y).1.toNat = x.toNat + y.toNat := by
  revert x y; decide

/-- The gate form of the FULL_ADDER's carry (R109); `fullAdder_eq` has it as a majority. -/
theorem fullAdder_gates : fullAdder x y c = (x ^^ y ^^ c, (x && y) || ((x ^^ y) && c)) := rfl

theorem fullAdder_reading :
    2 * (fullAdder x y c).2.toNat + (fullAdder x y c).1.toNat = x.toNat + y.toNat + c.toNat := by
  revert x y c; decide

theorem fullAdder_noCarry : fullAdder x y false = halfAdder x y := by
  revert x y; decide

theorem halfSubtractor_reading :
    ((halfSubtractor x y).1.toNat : Int) - 2 * (halfSubtractor x y).2.toNat = x.toNat - y.toNat := by
  revert x y; decide

theorem fullSubtractor_reading :
    ((fullSubtractor x y c).1.toNat : Int) - 2 * (fullSubtractor x y c).2.toNat =
      x.toNat - y.toNat - c.toNat := by
  revert x y c; decide

theorem fullSubtractor_noBorrow : fullSubtractor x y false = halfSubtractor x y := by
  revert x y; decide

theorem fullSubtractor_borrowOnly : fullSubtractor x false c = halfSubtractor x c := by
  revert x c; decide

/-- A FULL_SUBTRACTOR is a FULL_ADDER with the second operand, the carry in and the carry out inverted. -/
theorem fullSubtractor_eq_fullAdder_not :
    fullSubtractor x y c = ((fullAdder x (!y) (!c)).1, !(fullAdder x (!y) (!c)).2) := by
  revert x y c; decide

end cells

/-! ### The ripple-carry chain -/

section chains

variable {n : Nat} (a b : BitVec n)

/-- The sum of the chain (R114), as an addition of words. -/
theorem rippleAdd_sum (cin : Bool) :
    (rippleAdd a b cin).1 = a + b + (BitVec.ofBool cin).setWidth n := by
  refine BitVec.eq_of_getLsbD_eq fun i hi => ?_
  rw [rippleAdd_bit a b cin i hi, BitVec.getLsbD_add_add_bool hi]

/-- The sum of the chain (R114): the integer sum, truncated to the width. -/
theorem rippleAdd_sum_toNat (cin : Bool) :
    (rippleAdd a b cin).1.toNat = (a.toNat + b.toNat + cin.toNat) % 2 ^ n := by
  simp [rippleAdd_sum]

/-- A carry in adds one. -/
theorem rippleAdd_true_sum : (rippleAdd a b true).1 = a + b + 1#n := by
  have hone : (BitVec.ofBool true).setWidth n = 1#n := BitVec.eq_of_toNat_eq (by simp)
  rw [rippleAdd_sum, hone]

/-- The carry out of the chain (R114): whether the integer sum leaves the width. -/
theorem rippleAdd_carryOut_eq_decide (cin : Bool) :
    (rippleAdd a b cin).2 = decide (2 ^ n ≤ a.toNat + b.toNat + cin.toNat) := by
  simp [rippleAdd_carryOut, BitVec.carry]

/-- R114: sum and carry out together are the integer sum. Both operands are below `2 ^ n`, so that what the
truncation takes away is at most one `2 ^ n`. -/
theorem rippleAdd_reading (cin : Bool) :
    (rippleAdd a b cin).1.toNat + 2 ^ n * (rippleAdd a b cin).2.toNat =
      a.toNat + b.toNat + cin.toNat := by
  rw [rippleAdd_sum_toNat, rippleAdd_carryOut_eq_decide]
  have hlt : a.toNat + b.toNat + cin.toNat < 2 ^ n + 2 ^ n := by
    have := Bool.toNat_lt cin
    omega
  by_cases hcarry : 2 ^ n ≤ a.toNat + b.toNat + cin.toNat
  · rw [Nat.mod_eq_sub_mod hcarry, Nat.mod_eq_of_lt (by omega)]
    simp only [hcarry, decide_true, Bool.toNat_true]
    omega
  · simp [hcarry, Nat.mod_eq_of_lt (Nat.lt_of_not_le hcarry)]

/-- SUB's use of the chain (R114): the difference, and a carry out where there is no borrow. -/
theorem rippleAdd_not_true :
    rippleAdd a (~~~b) true = (a - b, decide (b.toNat ≤ a.toNat)) := by
  refine Prod.ext ?_ ?_
  · calc (rippleAdd a (~~~b) true).1 = a + ~~~b + 1#n := rippleAdd_true_sum a (~~~b)
      _ = a - b := by rw [BitVec.sub_eq_add_neg, BitVec.neg_eq_not_add, BitVec.add_assoc]
  · rw [rippleAdd_carryOut_eq_decide, BitVec.toNat_not, Bool.toNat_true, decide_eq_decide]
    omega

/-- INC's use of the chain (R114). -/
theorem rippleAdd_zero_true_sum : (rippleAdd a 0#n true).1 = a + 1#n := by
  rw [rippleAdd_true_sum, BitVec.add_zero]

/-- DEC's use of the chain (R114): all ones is minus one, and there is a carry out unless the word was zero. -/
theorem rippleAdd_allOnes_false :
    rippleAdd a (BitVec.allOnes n) false = (a - 1#n, decide (a.toNat ≠ 0)) := by
  refine Prod.ext ?_ ?_
  · simp [rippleAdd_sum, BitVec.sub_eq_add_neg, BitVec.neg_one_eq_allOnes]
  · rw [rippleAdd_carryOut_eq_decide, BitVec.toNat_allOnes, Bool.toNat_false, decide_eq_decide]
    omega

/-! ### The ripple-borrow chain -/

/-- After every cell, the borrow chain holds the inverted adder chain's sum bits and the complement of its carry
(R115). -/
theorem subtractorChain_eq_adderChain_not (bin : Bool) (k : Nat) (hk : k ≤ n) :
    subtractorChain a b bin k =
      ((adderChain a (~~~b) (!bin) k).1, !(adderChain a (~~~b) (!bin) k).2) := by
  induction k with
  | zero => simp [subtractorChain, adderChain]
  | succ k ih =>
    have hbit : (~~~b).getLsbD k = !b.getLsbD k := by simp [Nat.lt_of_succ_le hk]
    simp only [subtractorChain, adderChain, ih (Nat.le_of_succ_le hk), hbit,
      fullSubtractor_eq_fullAdder_not, Bool.not_not]

/-- R115: the ripple-borrow chain is the inverted adder chain with the complementary carry. -/
theorem rippleSub_eq_rippleAdd_not (bin : Bool) :
    rippleSub a b bin = ((rippleAdd a (~~~b) (!bin)).1, !(rippleAdd a (~~~b) (!bin)).2) :=
  subtractorChain_eq_adderChain_not a b bin n le_rfl

theorem toNat_not_eq_one_sub (x : Bool) : ((!x).toNat : Int) = 1 - x.toNat := by
  revert x; decide

/-- R115: difference and borrow out together are the integer difference. It is the reading of the inverted adder
chain, where `~~~b` stands for `2 ^ n - 1 - b` and each inverted bit for its complement to 1. -/
theorem rippleSub_reading (bin : Bool) :
    ((rippleSub a b bin).1.toNat : Int) - 2 ^ n * (rippleSub a b bin).2.toNat =
      a.toNat - b.toNat - bin.toNat := by
  have hadd := congrArg (Nat.cast (R := Int)) (rippleAdd_reading a (~~~b) (!bin))
  have hnot : ((~~~b).toNat : Int) = 2 ^ n - 1 - b.toNat := by
    have hb := b.isLt
    rw [BitVec.toNat_not, Nat.sub_sub, Nat.cast_sub (by omega)]
    push_cast
    ring
  push_cast [hnot, toNat_not_eq_one_sub bin] at hadd
  rw [rippleSub_eq_rippleAdd_not, toNat_not_eq_one_sub]
  linarith

end chains

end Sys2Proof.Machine

namespace Sys2Proof.Proofs

open Sys2Proof.Machine

/-- Settles O15: the reading of the ripple-carry chain and its three uses. -/
theorem rippleAddArithmetic : Obligations.RippleAddArithmetic := fun _ a b =>
  ⟨rippleAdd_reading a b, rippleAdd_not_true a b, rippleAdd_zero_true_sum a, rippleAdd_allOnes_false a⟩

/-- Settles O16: cell by cell the inverted adder chain, whose reading then is the difference. -/
theorem rippleSubIsInvertedRippleAdd : Obligations.RippleSubIsInvertedRippleAdd := fun _ a b bin =>
  ⟨rippleSub_eq_rippleAdd_not a b bin, rippleSub_reading a b bin⟩

/-- Settles O13, by evaluating the six gates on the four pairs of Bits. -/
theorem gateTruthTable : Obligations.GateTruthTable := rfl

/-- Settles O14, from the equation and the integer reading of each cell. -/
theorem cellEquations : Obligations.CellEquations := fun x y c =>
  ⟨halfAdder_eq x y, halfAdder_reading x y,
    fullAdder_gates x y c, fullAdder_reading x y c, fullAdder_noCarry x y,
    halfSubtractor_eq x y, halfSubtractor_reading x y,
    fullSubtractor_eq x y c, fullSubtractor_reading x y c,
    fullSubtractor_noBorrow x y, fullSubtractor_borrowOnly x c⟩

end Sys2Proof.Proofs

namespace Sys2Proof.Machine

/-!
The register operations (41_register_ops.md R120 to R123, R128, R129): the two commands that are one register write
and no more, and what the bit accesses and the integer readings answer on either side of their bounds.
-/

/-! ### One register write -/

section registerWrite

variable (s : State) (dst src : Reg) (v : Word)

/-- A register write, seen from every part of the state: the register itself and the frame (R21, R51). -/
theorem setReg_writes_only :
    (s.setReg dst v).reg dst = v ∧ (∀ r : Reg, r ≠ dst → (s.setReg dst v).reg r = s.reg r) ∧
      (s.setReg dst v).flags = s.flags ∧ (s.setReg dst v).port = s.port :=
  ⟨reg_setReg_self s dst v, fun _ hr => reg_setReg_of_ne s v hr, setReg_flags s dst v, setReg_port s dst v⟩

/-- MOV has no operand to refuse; its effect is one write and the flags as they were (R128). -/
theorem exec_mov : exec (.mov dst src) s = .next (s.setReg dst (s.reg src)) :=
  exec_eq_next_iff.mpr ⟨⟨rfl, rfl⟩, rfl⟩

/-- LDI has no operand to refuse; its effect is one write and the flags as they were (R129). -/
theorem exec_ldi : exec (.ldi dst v) s = .next (s.setReg dst v) :=
  exec_eq_next_iff.mpr ⟨⟨rfl, rfl⟩, rfl⟩

end registerWrite

/-! ### Bit accesses and integer readings, inside and outside their bounds -/

section bounds

variable {n i m : Nat} (u : BitVec n) (v : Word) (b : Bool)

theorem readBit_of_lt (h : i < n) : readBit u i = some (u.getLsbD i) := if_pos h

theorem readBit_of_le (h : n ≤ i) : readBit u i = none := if_neg (Nat.not_lt.mpr h)

theorem writeBit_of_lt (h : i < n) : writeBit u i b = some (placeBit u i b) := if_pos h

theorem writeBit_of_le (h : n ≤ i) : writeBit u i b = none := if_neg (Nat.not_lt.mpr h)

theorem toUnsigned_of_le (h : 16 ≤ m) : toUnsigned m v = some (v.setWidth m) := if_pos h

theorem toUnsigned_of_lt (h : m < 16) : toUnsigned m v = none := if_neg (Nat.not_le.mpr h)

theorem toSigned_of_le (h : 16 ≤ m) : toSigned m v = some (v.signExtend m) := if_pos h

theorem toSigned_of_lt (h : m < 16) : toSigned m v = none := if_neg (Nat.not_le.mpr h)

end bounds

end Sys2Proof.Machine

namespace Sys2Proof.Proofs

open Sys2Proof.Machine

/-- Settles O57: into a width of at least 16, zero extension keeps the unsigned value and sign extension the signed
one; a narrower width is answered with `none`. -/
theorem integerReadingsKeepTheValue : Obligations.IntegerReadingsKeepTheValue := by
  refine fun m v => ⟨fun hwide => ?_, fun hnarrow => ⟨toUnsigned_of_lt v hnarrow, toSigned_of_lt v hnarrow⟩⟩
  have hunsigned : (v.setWidth m).toNat = v.toNat := BitVec.toNat_setWidth_of_le hwide
  have hsigned : (v.signExtend m).toInt = v.toInt := BitVec.toInt_signExtend_of_le hwide
  exact ⟨v.setWidth m, v.signExtend m, toUnsigned_of_le v hwide, hunsigned, toSigned_of_le v hwide, hsigned⟩

/-- Settles O58: an index in range reaches `getLsbD` and `placeBit`, which touch that one bit; any other index reaches
neither. -/
theorem bitAccessIsLocal : Obligations.BitAccessIsLocal := fun v i b =>
  ⟨fun hin => ⟨readBit_of_lt v hin, placeBit v i b, writeBit_of_lt v b hin, fun j hj => getLsbD_placeBit v i j b hj⟩,
    fun hout => ⟨readBit_of_le v hout, writeBit_of_le v b hout⟩⟩

/-- Settles O32: MOV is the write of `src` to `dst`. -/
theorem movCompletes : Obligations.MovCompletes := fun dst src s =>
  ⟨_, exec_mov s dst src, setReg_writes_only s dst (s.reg src)⟩

/-- Settles O33: LDI is the write of its pattern to `reg`. -/
theorem ldiCompletes : Obligations.LdiCompletes := fun reg imm s =>
  ⟨_, exec_ldi s reg imm, setReg_writes_only s reg imm⟩

end Sys2Proof.Proofs

namespace Sys2Proof.Machine

/-!
Addition and subtraction on the chain (42_add_sub.md R140 to R143). The data path is read once, at every width, as an
addition or a subtraction of words with its four flags; the effect of ADD and SUB, their signed overflow and their laws
follow from that reading. ZF and SF of every other flagged command (R142) are tied to the destination by the shape of
the command's effect.
-/

/-! ### The data path, at every width -/

section words

variable {n : Nat} (a b : BitVec n)

/-- ADD's use of the chain (R140): the sum, and a carry out where the unsigned sum does not fit. -/
theorem rippleAdd_false : rippleAdd a b false = (a + b, decide (2 ^ n ≤ a.toNat + b.toNat)) := by
  refine Prod.ext ?_ ?_
  · simp [rippleAdd_sum]
  · simp [rippleAdd_carryOut_eq_decide]

/-- The addition of R140: the sum of the words, with the carry and the overflow read off the operands. -/
theorem addWords_eq_add :
    addWords a b = (a + b,
      { cf := decide (2 ^ n ≤ a.toNat + b.toNat)
        zf := decide (a + b = 0#n)
        sf := (a + b).msb
        of := decide (a.msb = b.msb ∧ (a + b).msb ≠ a.msb) }) := by
  simp only [addWords_eq, rippleAdd_false, addFlags, isZero_eq, bne, beq_eq_decide, Bool.decide_and, ne_eq, decide_not]

/-- The subtraction of R141: the difference of the words, with the carry out of the chain read as no borrow. -/
theorem subWords_eq_sub :
    subWords a b = (a - b,
      { cf := decide (a.toNat < b.toNat)
        zf := decide (a - b = 0#n)
        sf := (a - b).msb
        of := decide (a.msb ≠ b.msb ∧ (a - b).msb ≠ a.msb) }) := by
  have hborrow : (!decide (b.toNat ≤ a.toNat)) = decide (a.toNat < b.toNat) := by
    rw [← decide_not, decide_eq_decide, Nat.not_le]
  simp only [subWords_eq, rippleAdd_not_true, subFlags, hborrow, isZero_eq, bne, beq_eq_decide, Bool.decide_and, ne_eq,
    decide_not]

/-- The internal comparison against zero gives the value back (R191). -/
theorem subWords_zero_value : (subWords a 0#n).1 = a := by
  rw [subWords_eq_sub, BitVec.sub_zero]

/-- Exchanging the operands of an addition changes neither the sum nor a flag (R143 item 2). OF is the one flag whose
expression names one operand, and only where the signs agree. -/
theorem addWords_comm : addWords a b = addWords b a := by
  have hof : (a.msb = b.msb ∧ (b + a).msb ≠ a.msb) ↔ (b.msb = a.msb ∧ (b + a).msb ≠ b.msb) := by
    constructor <;> exact fun ⟨hsign, hsum⟩ => ⟨hsign.symm, hsign ▸ hsum⟩
  simp only [addWords_eq_add, BitVec.add_comm a b, Nat.add_comm a.toNat, hof]

/-- OF of an addition is the library's signed overflow. -/
theorem addWords_of : (addWords a b).2.of = BitVec.saddOverflow a b := by
  rw [addWords_eq_add, BitVec.saddOverflow_eq, Bool.decide_and, decide_not]
  rfl

/-- OF of a subtraction is the library's signed overflow, which spells out the two pairs of differing signs. -/
theorem subWords_of : (subWords a b).2.of = BitVec.ssubOverflow a b := by
  rw [subWords_eq_sub, BitVec.ssubOverflow_eq]
  cases a.msb <;> cases b.msb <;> simp

end words

/-! ### ADD and SUB -/

section commands

variable (s : State) (lhs rhs : Reg)

/-- ADD has no operand to refuse; its effect is one write and the flags of the addition (R140). -/
theorem exec_add :
    exec (.add lhs rhs) s = .next ((s.setReg lhs (addWords (s.reg lhs) (s.reg rhs)).1).setFlags
      (addWords (s.reg lhs) (s.reg rhs)).2) :=
  exec_eq_next_iff.mpr ⟨⟨rfl, rfl⟩, rfl⟩

/-- SUB has no operand to refuse; its effect is one write and the flags of the subtraction (R141). -/
theorem exec_sub :
    exec (.sub lhs rhs) s = .next ((s.setReg lhs (subWords (s.reg lhs) (s.reg rhs)).1).setFlags
      (subWords (s.reg lhs) (s.reg rhs)).2) :=
  exec_eq_next_iff.mpr ⟨⟨rfl, rfl⟩, rfl⟩

end commands

/-! ### ZF and SF describe the destination -/

/-- A `zero` operand that passes its check is the all-zero pattern (R226). -/
theorem reg_of_zeroOperandHolds {i : Instr} {s : State} {z : Reg} (hz : zeroOperandHolds i s = true)
    (hop : zeroOperand i = some z) : s.reg z = 0#16 := by
  simpa [zeroOperandHolds, hop] using hz

/-- ZF and SF of an internal comparison against zero are those of the value compared, also when CF and OF are
overwritten after it. -/
theorem zeroSignOf_subWords_zero {n : Nat} (a : BitVec n) (cf of : Bool) :
    ZeroSignOf { (subWords a 0#n).2 with cf := cf, of := of } a := by
  simpa only [subWords_zero_value] using zeroSignOf_subWords a 0#n cf of

/-- The flags of the effect have the ZF and SF of what register `d` holds after it (R142). -/
def Effect.Describes (e : Effect) (s : State) (d : Reg) : Prop := ZeroSignOf e.flags ((e.applyTo s).reg d)

theorem describes_of_reg {e : Effect} {s : State} {d : Reg} {v : Word} (hflags : ZeroSignOf e.flags v)
    (hreg : (e.applyTo s).reg d = v) : e.Describes s d := by
  rwa [Effect.Describes, hreg]

/-- A shift or rotate: `temp` gets the difference to zero, which is the moved value again, so that `reg` holds it
whether `temp` is another register or not. -/
theorem moveEffect_describes (s : State) (reg zero temp : Reg) (m : Moved 16) (steps : Nat)
    (netOne ofAtOne : Bool) (hzero : s.reg zero = 0#16) :
    (moveEffect s.reg reg zero temp m steps netOne ofAtOne).Describes s reg := by
  refine describes_of_reg (v := m.1) ?_ ?_
  · rw [moveEffect, hzero]
    exact zeroSignOf_subWords_zero m.1 _ _
  · simp [moveEffect, hzero, subWords_zero_value, reg_setReg]

/-- DIV: a zero divisor leaves zero in `lhs` and flags that say so; any other leaves the quotient there, which the
remainder in `temp` does not overwrite. -/
theorem divisionEffect_describes (s : State) {lhs rhs quotient temp zero : Reg} (htemp : temp ≠ lhs)
    (hzero : s.reg zero = 0#16) : (divisionEffect s.reg lhs rhs quotient temp zero).Describes s lhs := by
  unfold divisionEffect
  split
  · exact describes_of_reg (v := 0#16) ⟨rfl, rfl⟩ (reg_setReg_self s lhs _)
  · refine describes_of_reg (v := (divWords (s.reg lhs) (s.reg rhs)).1) ?_ ?_
    · rw [hzero]
      exact zeroSignOf_subWords_zero _ false false
    · simp [reg_setReg, htemp.symm]

/-- A command with a destination for ZF and SF describes what the destination then holds (R142). -/
theorem commandEffect_describes {i : Instr} {s : State} {d : Reg} (hdom : InDomain i s)
    (hd : flaggedDestination i = some d) : (commandEffect i s.reg s.flags).Describes s d := by
  obtain ⟨hdistinct, hz⟩ := hdom
  cases i with
  | mul | mov | ldi => simp [flaggedDestination] at hd
  | add | sub | inc | dec | cmp =>
    obtain rfl := Option.some.inj hd
    exact describes_of_reg ⟨rfl, rfl⟩ (reg_setReg_self s _ _)
  | neg reg temp zero =>
    obtain rfl := Option.some.inj hd
    exact describes_of_reg (v := negWord (s.reg reg)) ⟨rfl, rfl⟩ (by simp [commandEffect, reg_setReg])
  | shl | shr | sar | rol | ror =>
    obtain rfl := Option.some.inj hd
    exact moveEffect_describes s _ _ _ _ _ _ _ (reg_of_zeroOperandHolds hz rfl)
  | div lhs rhs quotient temp zero =>
    obtain rfl := Option.some.inj hd
    obtain ⟨-, htemp, -⟩ := of_decide_eq_true hdistinct
    exact divisionEffect_describes s (List.ne_of_not_mem_cons htemp) (reg_of_zeroOperandHolds hz rfl)

end Sys2Proof.Machine

namespace Sys2Proof.Proofs

open Sys2Proof.Machine

/-- Settles O40: the flags after the command are the ZF and SF of the destination's content, which are never both 1. -/
theorem zeroAndSignDescribeTheDestination : Obligations.ZeroAndSignDescribeTheDestination := by
  intro i s t d h hd
  obtain ⟨hdom, rfl⟩ := exec_eq_next_iff.mp h
  have hdescribes : ZeroSignOf _ _ := commandEffect_describes hdom hd
  have hnotBoth := hdescribes.not_zf_and_sf
  obtain ⟨hzf, hsf⟩ := hdescribes
  exact ⟨hzf, hsf.trans (BitVec.msb_eq_getLsbD_last _), fun hz => Bool.eq_false_iff.mpr fun hs => hnotBoth ⟨hz, hs⟩⟩

/-- Settles O18: the effect of ADD, with the addition read as a sum of words. -/
theorem addCompletes : Obligations.AddCompletes := fun lhs rhs s => by
  rw [exec_add, addWords_eq_add]

/-- Settles O19: the effect of SUB, with the subtraction read as a difference of words. -/
theorem subCompletes : Obligations.SubCompletes := fun lhs rhs s => by
  rw [exec_sub, subWords_eq_sub]

/-- Settles O45: OF is the library's signed overflow, whose bounds at width 16 are these. -/
theorem overflowIsSignedOverflow : Obligations.OverflowIsSignedOverflow := by
  intro a b
  constructor
  · rw [addWords_of, BitVec.saddOverflow, ← Bool.decide_or, decide_eq_decide]
    omega
  · rw [subWords_of, BitVec.ssubOverflow, ← Bool.decide_or, decide_eq_decide]
    omega

/-- Settles O49: SUB finds the sum in `lhs` and the addend untouched in `rhs`, another register. -/
theorem addThenSubRestores : Obligations.AddThenSubRestores := by
  intro lhs rhs s hne
  refine ⟨_, _, exec_add s lhs rhs, exec_sub _ lhs rhs, ?_⟩
  simp only [setFlags_reg, reg_setReg_self, reg_setReg_of_ne _ _ hne.symm, addWords_eq_add, subWords_eq_sub]
  exact BitVec.add_sub_cancel (s.reg lhs) (s.reg rhs)

/-- Settles O50. -/
theorem addIsCommutative : Obligations.AddIsCommutative := fun _ a b => addWords_comm a b

end Sys2Proof.Proofs

namespace Sys2Proof.Machine

/-!
MUL and DIV (43_mul_div.md R150 to R154). MUL's loop has its value in closed form after every iteration, and its flags
are those of the last shift; DIV's words are the library's unsigned quotient and remainder, and the loop of repeated
subtraction, given enough fuel, ends with the same two words.
-/

/-! ### The internal comparison, with CF and OF overwritten -/

/-- The flags of an internal comparison against zero, whose CF and OF the command overwrites (R151, R152). -/
theorem subWords_zero_flags {n : Nat} (v : BitVec n) (cf of : Bool) :
    { (subWords v 0#n).2 with cf := cf, of := of } =
      ({ cf := cf, zf := decide (v = 0#n), sf := v.msb, of := of } : Flags) := by
  rw [subWords_eq_sub, BitVec.sub_zero]

/-! ### MUL's loop -/

section mulLoop

variable (q multiplicand : Word) (m : MulWork) (f : Flags) (bit : Bool) (k : Nat)

@[simp] theorem mulAccumulate_shifted : (mulAccumulate bit m).shifted = m.shifted := by
  cases bit <;> rfl

theorem mulAccumulate_acc : (mulAccumulate bit m).acc = m.acc + if bit then m.shifted else 0#16 := by
  cases bit
  · exact (BitVec.add_zero m.acc).symm
  · change (addWords m.acc m.shifted).1 = m.acc + m.shifted
    rw [addWords_eq_add]

/-- The one-bit shift: the MSB leaves into CF, and OF says whether the sign changed (R150, R171). -/
theorem mulShift_eq :
    mulShift m = ⟨m.acc, m.shifted <<< 1,
      { cf := m.shifted.msb
        zf := decide (m.shifted <<< 1 = 0#16)
        sf := (m.shifted <<< 1).msb
        of := (m.shifted <<< 1).msb ^^ m.shifted.msb }⟩ := by
  rw [← subWords_zero_flags]
  rfl

/-- After `k` iterations the shifted copy is the multiplicand times `2 ^ k` (R151). -/
theorem mulLoop_shifted : (mulLoop q ⟨0#16, multiplicand, f⟩ k).shifted = multiplicand <<< k := by
  induction k with
  | zero => exact (BitVec.shiftLeft_zero multiplicand).symm
  | succ k ih => rw [mulLoop, mulShift_eq, mulAccumulate_shifted, ih, BitVec.shiftLeft_add]

/-- After `k` iterations the accumulator is the multiplicand times the low `k` bits of the multiplier: bit `k` adds
the shifted copy, which is its own share of the product. -/
theorem mulLoop_acc :
    (mulLoop q ⟨0#16, multiplicand, f⟩ k).acc = multiplicand * (q.setWidth k).setWidth 16 := by
  induction k with
  | zero => simp [mulLoop, BitVec.of_length_zero]
  | succ k ih =>
    have hshare : (if q.getLsbD k then multiplicand <<< k else 0#16) =
        multiplicand * (q &&& BitVec.twoPow 16 k) := by
      rw [BitVec.and_twoPow, ← BitVec.mul_twoPow_eq_shiftLeft]
      split <;> simp
    calc (mulLoop q ⟨0#16, multiplicand, f⟩ (k + 1)).acc
        = multiplicand * (q.setWidth k).setWidth 16 + if q.getLsbD k then multiplicand <<< k else 0#16 := by
          rw [mulLoop, mulShift_eq, mulAccumulate_acc, ih, mulLoop_shifted]
      _ = multiplicand * ((q.setWidth k).setWidth 16 + (q &&& BitVec.twoPow 16 k)) := by
          rw [hshare, BitVec.mul_add]
      _ = _ := by rw [← BitVec.setWidth_setWidth_succ_eq_setWidth_setWidth_add_twoPow]

/-- The flags of the last iteration (R151): before its shift only the MSB of the copy can be 1, and that is bit 0 of
the multiplicand. -/
theorem mulLoop_flags :
    (mulLoop q ⟨0#16, multiplicand, f⟩ 16).flags =
      ⟨multiplicand.getLsbD 0, true, false, multiplicand.getLsbD 0⟩ := by
  have hmsb : (multiplicand <<< 15).msb = multiplicand.getLsbD 0 := by
    simp [BitVec.msb_eq_getLsbD_last]
  have hzero : multiplicand <<< 15 <<< 1 = 0#16 := by
    rw [← BitVec.shiftLeft_add, BitVec.shiftLeft_eq_zero le_rfl]
  rw [mulLoop, mulShift_eq, mulAccumulate_shifted, mulLoop_shifted, hmsb, hzero]
  simp

/-- What MUL's loop answers: the low half of the product, the exhausted copy, and the flags of R151. -/
theorem mulLoop_eq :
    mulLoop q ⟨0#16, multiplicand, f⟩ 16 =
      ⟨multiplicand * q, 0#16, ⟨multiplicand.getLsbD 0, true, false, multiplicand.getLsbD 0⟩⟩ := by
  have hacc : (mulLoop q ⟨0#16, multiplicand, f⟩ 16).acc = multiplicand * q := by
    rw [mulLoop_acc, BitVec.setWidth_eq, BitVec.setWidth_eq]
  have hshifted : (mulLoop q ⟨0#16, multiplicand, f⟩ 16).shifted = 0#16 := by
    rw [mulLoop_shifted, BitVec.shiftLeft_eq_zero le_rfl]
  exact congr (congrArg₂ MulWork.mk hacc hshifted) (mulLoop_flags q multiplicand f)

end mulLoop

/-! ### Division by repeated subtraction -/

section division

variable {n : Nat} {a b : BitVec n}

/-- One subtraction of the divisor takes one from the quotient. -/
theorem udiv_eq_sub_udiv_add_one (hb : b ≠ 0#n) (hle : b ≤ a) : a / b = (a - b) / b + 1#n := by
  rw [BitVec.udiv_def, BitVec.udiv_def, BitVec.toNat_sub_of_le hle,
    Nat.div_eq_sub_div (BitVec.toNat_pos_of_ne_zero hb) hle, BitVec.ofNat_add]

/-- One subtraction of the divisor keeps the remainder. -/
theorem umod_eq_sub_umod (hle : b ≤ a) : a % b = (a - b) % b := by
  rw [BitVec.umod_def, BitVec.umod_def, BitVec.toNat_sub_of_le hle, Nat.mod_eq_sub_mod hle]

end division

section divLoop

variable (fuel : Nat) (q : Word) {b w : Word}

/-- A subtraction that does not borrow counts one and goes on with the difference (R152). -/
theorem divLoop_of_le (hle : b ≤ w) : divLoop b (fuel + 1) q w = divLoop b fuel (q + 1#16) (w - b) := by
  have hcarry : decide (b.toNat ≤ w.toNat) = true := decide_eq_true hle
  simp only [divLoop, rippleAdd_not_true, rippleAdd_zero_true_sum, hcarry, if_true]

/-- The subtraction that borrows is undone, and ends the loop (R152). -/
theorem divLoop_of_lt (hlt : w < b) : divLoop b (fuel + 1) q w = (q, w) := by
  have hborrow : decide (b.toNat ≤ w.toNat) = false := decide_eq_false (Nat.not_le.mpr hlt)
  simp [divLoop, rippleAdd_not_true, rippleAdd_false, hborrow]

/-- With fuel for one subtraction more than the quotient, the loop adds the quotient to its counter and leaves the
remainder. -/
theorem divLoop_eq (hb : b ≠ 0#16) (hfuel : w.toNat / b.toNat < fuel) :
    divLoop b fuel q w = (q + w / b, w % b) := by
  induction fuel generalizing q w with
  | zero => exact absurd hfuel (Nat.not_lt_zero _)
  | succ fuel ih =>
    by_cases hle : b ≤ w
    · have hfuel' : (w - b).toNat / b.toNat < fuel := by
        rw [Nat.div_eq_sub_div (BitVec.toNat_pos_of_ne_zero hb) hle] at hfuel
        rw [BitVec.toNat_sub_of_le hle]
        exact Nat.lt_of_succ_lt_succ hfuel
      rw [divLoop_of_le fuel q hle, ih _ hfuel', udiv_eq_sub_udiv_add_one hb hle, umod_eq_sub_umod hle,
        BitVec.add_assoc, BitVec.add_comm 1#16]
    · have hlt : w < b := BitVec.not_le.mp hle
      rw [divLoop_of_lt fuel q hlt, BitVec.udiv_eq_zero_iff_eq_zero_or_lt.mpr (.inr hlt), BitVec.umod_eq_of_lt hlt,
        BitVec.add_zero]

/-- No quotient reaches `2 ^ 16`, so R152's loop has fuel enough for every divisor but zero. -/
theorem repeatedSubtraction_eq {a : Word} (hb : b ≠ 0#16) : repeatedSubtraction a b = divWords a b := by
  have hfuel : a.toNat / b.toNat < 2 ^ 16 := (Nat.div_le_self _ _).trans_lt a.isLt
  rw [repeatedSubtraction, divLoop_eq _ _ hb hfuel, BitVec.zero_add, divWords]

end divLoop

/-! ### MUL and DIV -/

section commands

variable {s : State} {lhs rhs quotient temp zero : Reg}

/-- The domain of MUL, operand by operand (R225, R226). -/
theorem inDomain_mul (hlhs : temp ≠ lhs) (hrhs : temp ≠ rhs) (hzero : temp ≠ zero) (hzl : zero ≠ lhs)
    (hz : s.reg zero = 0#16) : InDomain (.mul lhs rhs temp zero) s :=
  ⟨by simp [operandsDistinct, hlhs, hrhs, hzero, hzl], by simp [zeroOperandHolds, zeroOperand, hz]⟩

/-- The domain of DIV, operand by operand (R225, R226). -/
theorem inDomain_div (hquotient : quotient ∉ [lhs, rhs, temp, zero]) (htemp : temp ∉ [lhs, rhs, zero])
    (hzl : zero ≠ lhs) (hz : s.reg zero = 0#16) : InDomain (.div lhs rhs quotient temp zero) s :=
  ⟨decide_eq_true ⟨hquotient, htemp, hzl⟩, by simp [zeroOperandHolds, zeroOperand, hz]⟩

/-- MUL in its domain, from what its loop answers (R150). -/
theorem exec_mul (hdom : InDomain (.mul lhs rhs temp zero) s) :
    exec (.mul lhs rhs temp zero) s =
      .next (((s.setReg lhs (s.reg lhs * s.reg rhs)).setReg temp 0#16).setFlags
        ⟨(s.reg lhs).getLsbD 0, true, false, (s.reg lhs).getLsbD 0⟩) := by
  refine exec_eq_next_iff.mpr ⟨hdom, ?_⟩
  simp only [commandEffect, Config.architecture, mulLoop_eq]
  rfl

/-- The effect of DIV where the divisor is the all-zero pattern of `zero` (R153). -/
theorem divisionEffect_of_eq {x : Reg → Word} (h : x rhs = x zero) :
    divisionEffect x lhs rhs quotient temp zero = ⟨[(lhs, 0#16)], divByZeroFlags⟩ :=
  if_pos ((wordsEqual_iff _ _).mpr h)

/-- The effect of DIV on any other divisor: ZF and SF are those of the quotient (R152). -/
theorem divisionEffect_of_ne {x : Reg → Word} (hz : x zero = 0#16) (hne : x rhs ≠ 0#16) :
    divisionEffect x lhs rhs quotient temp zero =
      ⟨[(lhs, x lhs / x rhs), (quotient, x lhs / x rhs), (temp, x lhs % x rhs)],
        { cf := false, zf := decide (x lhs / x rhs = 0#16), sf := (x lhs / x rhs).msb, of := false }⟩ := by
  have hdiffer : ¬wordsEqual (x rhs) (x zero) = true := by rwa [wordsEqual_iff, hz]
  rw [divisionEffect, if_neg hdiffer, hz, ← subWords_zero_flags]
  rfl

end commands

end Sys2Proof.Machine

namespace Sys2Proof.Proofs

open Sys2Proof.Machine

/-- Settles O43: the loop has fuel for every quotient, and `BitVec`'s division is the unsigned one. -/
theorem divIsRepeatedSubtraction : Obligations.DivIsRepeatedSubtraction := fun _ _ hb =>
  ⟨repeatedSubtraction_eq hb, BitVec.toNat_udiv, BitVec.toNat_umod⟩

/-- Settles O24, from the closed form of MUL's loop. -/
theorem mulCompletes : Obligations.MulCompletes := fun _ _ _ _ _ hlhs hrhs hzero hzl hz =>
  exec_mul (inDomain_mul hlhs hrhs hzero hzl hz)

/-- Settles O25: the quotient and remainder of the words are those of the integers, and the quotient is zero exactly
when the dividend is below the divisor. -/
theorem divCompletes : Obligations.DivCompletes := by
  intro lhs rhs quotient temp zero s hquotient htemp hzl hz hne
  refine exec_eq_next_iff.mpr ⟨inDomain_div hquotient htemp hzl hz, ?_⟩
  have hzf : s.reg lhs / s.reg rhs = 0#16 ↔ (s.reg lhs).toNat < (s.reg rhs).toNat := by
    rw [BitVec.udiv_eq_zero_iff_eq_zero_or_lt, or_iff_right hne, BitVec.lt_def]
  simp only [commandEffect, divisionEffect_of_ne hz hne, hzf, ← BitVec.udiv_def, ← BitVec.umod_def]
  rfl

/-- Settles O26: the divisor equals the `zero` operand, so the effect is the one of R153, which writes `lhs` alone. -/
theorem divByZeroCompletes : Obligations.DivByZeroCompletes := by
  intro lhs rhs quotient temp zero s hquotient htemp hzl hz hdivisor
  refine exec_eq_next_iff.mpr ⟨inDomain_div hquotient htemp hzl hz, ?_⟩
  rw [commandEffect, divisionEffect_of_eq (hdivisor.trans hz.symm)]
  rfl

end Sys2Proof.Proofs

namespace Sys2Proof.Machine

/-!
INC, DEC and NEG (44_inc_dec_neg.md R160 to R164). The two chains that stop early have one shape, so that their bits
are read once for both; with the carry or borrow into each cell they are the full chains, and so add and subtract one.
NEG is the subtraction from zero, in its value and in its flags.
-/

/-! ### The chains that stop early -/

section chains

variable {n : Nat} (r : BitVec n)

/-- A chain that inverts bit `k` as long as its carry is 1, and stops at the first carry 0, inverts exactly the bits
whose cell had carry-in 1. -/
theorem getLsbD_stoppingChain {r : BitVec n} {chain : Nat → BitVec n × Bool} {carryOut : Nat → Bool}
    (hstart : chain 0 = (r, true))
    (hnext : ∀ k, chain (k + 1) =
      if (chain k).2 then (placeBit (chain k).1 k (!r.getLsbD k), carryOut k) else chain k)
    (k : Nat) {j : Nat} (hj : j < n) :
    (chain k).1.getLsbD j = (r.getLsbD j ^^ (decide (j < k) && (chain j).2)) := by
  induction k with
  | zero => simp [hstart]
  | succ k ih =>
    rw [hnext]
    by_cases hjk : j = k
    · subst hjk
      cases hcarry : (chain j).2 <;> simp [hcarry, getLsbD_placeBit _ _ _ _ hj, ih]
    · have hlt : j < k + 1 ↔ j < k := by omega
      cases hcarry : (chain k).2 <;> simp [getLsbD_placeBit _ _ _ _ hj, ih, hjk, hlt]

/-- A cell of INC's chain: with carry-in 1 the full adder inverts the bit and carries it out (R160). -/
theorem incChain_succ (k : Nat) :
    incChain r (k + 1) =
      if (incChain r k).2 then (placeBit (incChain r k).1 k (!r.getLsbD k), r.getLsbD k) else incChain r k := by
  rw [incChain]
  split
  next hcarry => simp [hcarry, Bool.atLeastTwo]
  next => rfl

/-- A cell of DEC's chain: with borrow-in 1 the half subtractor inverts the bit and borrows where it was 0 (R161). -/
theorem decChain_succ (k : Nat) :
    decChain r (k + 1) =
      if (decChain r k).2 then (placeBit (decChain r k).1 k (!r.getLsbD k), !r.getLsbD k) else decChain r k := by
  rw [decChain]
  split
  next hborrow => simp [hborrow]
  next => rfl

/-- The carry of INC's chain is that of the full chain: once it is 0 it stays 0. -/
theorem incChain_carry (k : Nat) : (incChain r k).2 = BitVec.carry k r 0#n true := by
  induction k with
  | zero => simp [incChain, BitVec.carry_zero]
  | succ k ih =>
    rw [incChain_succ, BitVec.carry_succ, ← ih]
    cases hcarry : (incChain r k).2 <;> simp [hcarry, Bool.atLeastTwo]

/-- The borrow of DEC's chain is the complement of the full chain's carry, within the width. -/
theorem decChain_borrow {k : Nat} (hk : k ≤ n) :
    (decChain r k).2 = !BitVec.carry k r (BitVec.allOnes n) false := by
  induction k with
  | zero => simp [decChain, BitVec.carry_zero]
  | succ k ih =>
    have hone : (BitVec.allOnes n).getLsbD k = true := by simpa using hk
    rw [decChain_succ, BitVec.carry_succ, hone, ih (Nat.le_of_succ_le hk)]
    cases hcarry : BitVec.carry k r (BitVec.allOnes n) false <;> simp [hcarry, ih (Nat.le_of_succ_le hk)]

/-- INC's chain is the full chain with operand 0 and carry-in 1 (R163). -/
theorem incChain_eq_rippleAdd : incChain r n = rippleAdd r 0#n true := by
  refine Prod.ext (BitVec.eq_of_getLsbD_eq fun j hj => ?_) ?_
  · rw [getLsbD_stoppingChain rfl (incChain_succ r) n hj, incChain_carry, rippleAdd_bit _ _ _ j hj]
    simp [hj]
  · rw [incChain_carry, rippleAdd_carryOut]

/-- DEC's chain is the full chain that adds all ones, its borrow out the complement of the carry out (R163). -/
theorem decChain_eq_rippleAdd :
    decChain r n =
      ((rippleAdd r (BitVec.allOnes n) false).1, !(rippleAdd r (BitVec.allOnes n) false).2) := by
  refine Prod.ext (BitVec.eq_of_getLsbD_eq fun j hj => ?_) ?_
  · rw [getLsbD_stoppingChain rfl (decChain_succ r) n hj, decChain_borrow r hj.le, rippleAdd_bit _ _ _ j hj]
    simp [hj]
  · rw [decChain_borrow r le_rfl, rippleAdd_carryOut]

end chains

/-! ### The values and the flags, at every width -/

section words

variable {n : Nat} (r : BitVec n)

theorem incWord_eq_add_one : incWord r = r + 1#n := by
  rw [incWord, incChain_eq_rippleAdd, rippleAdd_zero_true_sum]

theorem decWord_eq_sub_one : decWord r = r - 1#n := by
  rw [decWord, decChain_eq_rippleAdd, rippleAdd_allOnes_false]

theorem negWord_eq_neg : negWord r = -r := by
  rw [negWord, rippleAdd_not_true, BitVec.zero_sub]

/-- The flags of R160, with OF where the sign goes from 0 to 1. -/
theorem incFlags_eq (old : Flags) (v : BitVec n) :
    incFlags old r v =
      { cf := old.cf, zf := decide (v = 0#n), sf := v.msb, of := decide (r.msb = false ∧ v.msb = true) } := by
  simp [incFlags, beq_eq_decide]

/-- The flags of R161, with OF where the sign goes from 1 to 0. -/
theorem decFlags_eq (old : Flags) (v : BitVec n) :
    decFlags old r v =
      { cf := old.cf, zf := decide (v = 0#n), sf := v.msb, of := decide (r.msb = true ∧ v.msb = false) } := by
  simp [decFlags, beq_eq_decide]

/-- A word and its negation have both the sign bit only at the minimum, which is its own negation
(90_conflicts.md C2). -/
theorem msb_and_msb_neg (r : Word) : (r.msb && (-r).msb) = decide (r = 0x8000#16) := by
  have hintMin : BitVec.intMin 16 = 0x8000#16 := rfl
  rw [BitVec.msb_neg, hintMin]
  by_cases hmin : r = 0x8000#16
  · subst hmin; rfl
  · cases hmsb : r.msb
    · simp [hmin]
    · have hzero : r ≠ 0#16 := by rintro rfl; simp at hmsb
      simp [hmin, hzero]

/-- The flags of R162 on a word and its negation, which is zero for zero alone. -/
theorem negFlags_neg (r : Word) :
    negFlags r (-r) =
      { cf := decide (r ≠ 0#16), zf := decide (r = 0#16), sf := (-r).msb, of := decide (r = 0x8000#16) } := by
  simp [negFlags, beq_eq_decide, msb_and_msb_neg, BitVec.neg_eq_zero_iff]

/-- NEG is SUB's data path with the all-zero pattern on the left (R162): only zero borrows nothing, and from zero the
sign bits differ exactly where the subtrahend's is 1. -/
theorem negWord_negFlags_eq_subWords : (negWord r, negFlags r (negWord r)) = subWords 0#n r := by
  have hborrow : 0 < r.toNat ↔ r ≠ 0#n := by
    rw [Nat.pos_iff_ne_zero, ne_eq, ne_eq, BitVec.toNat_eq, BitVec.toNat_zero]
  simp [negWord_eq_neg, subWords_eq_sub, negFlags, beq_eq_decide, hborrow]

end words

/-! ### INC, DEC and NEG -/

section commands

variable (s : State) (reg : Reg)

/-- INC has no operand to refuse; its effect is one write and every flag but CF (R160). -/
theorem exec_inc :
    exec (.inc reg) s =
      .next ((s.setReg reg (s.reg reg + 1#16)).setFlags (incFlags s.flags (s.reg reg) (s.reg reg + 1#16))) := by
  rw [← incWord_eq_add_one]
  exact exec_eq_next_iff.mpr ⟨⟨rfl, rfl⟩, rfl⟩

/-- DEC has no operand to refuse; its effect is one write and every flag but CF (R161). -/
theorem exec_dec :
    exec (.dec reg) s =
      .next ((s.setReg reg (s.reg reg - 1#16)).setFlags (decFlags s.flags (s.reg reg) (s.reg reg - 1#16))) := by
  rw [← decWord_eq_sub_one]
  exact exec_eq_next_iff.mpr ⟨⟨rfl, rfl⟩, rfl⟩

variable {s reg} {temp zero : Reg}

/-- The domain of NEG, operand by operand (R225, R226). -/
theorem inDomain_neg (hreg : temp ≠ reg) (hzero : temp ≠ zero) (hzr : zero ≠ reg) (hz : s.reg zero = 0#16) :
    InDomain (.neg reg temp zero) s :=
  ⟨by simp [operandsDistinct, unaryDistinct, hreg, hzero, hzr], by simp [zeroOperandHolds, zeroOperand, hz]⟩

/-- NEG in its domain: the negation to `reg` and to `temp`, with its four flags (R162). -/
theorem exec_neg (hdom : InDomain (.neg reg temp zero) s) :
    exec (.neg reg temp zero) s =
      .next (((s.setReg reg (-s.reg reg)).setReg temp (-s.reg reg)).setFlags
        (negFlags (s.reg reg) (-s.reg reg))) := by
  rw [← negWord_eq_neg]
  exact exec_eq_next_iff.mpr ⟨hdom, rfl⟩

end commands

end Sys2Proof.Machine

namespace Sys2Proof.Proofs

open Sys2Proof.Machine

/-- Settles O17: stopping early, each chain has the carries and the bits of the full chain. -/
theorem earlyTerminationIsUnobservable : Obligations.EarlyTerminationIsUnobservable := fun _ r =>
  ⟨incChain_eq_rippleAdd r, decChain_eq_rippleAdd r⟩

/-- Settles O21: the effect of INC, with its flags spelled out. -/
theorem incCompletes : Obligations.IncCompletes := fun reg s => by
  rw [exec_inc, incFlags_eq]

/-- Settles O22: the effect of DEC, with its flags spelled out. -/
theorem decCompletes : Obligations.DecCompletes := fun reg s => by
  rw [exec_dec, decFlags_eq]

/-- Settles O23: the effect of NEG in its domain; the minimum of 16 bits is `0x8000`. -/
theorem negCompletes : Obligations.NegCompletes := by
  intro reg temp zero s hreg hzero hzr hz
  rw [exec_neg (inDomain_neg hreg hzero hzr hz), negFlags_neg]

/-- Settles O48, at width 16. -/
theorem negIsSubtractionFromZero : Obligations.NegIsSubtractionFromZero := fun r => negWord_negFlags_eq_subWords r

/-- Settles O51: DEC finds the incremented word in the register, and neither command writes CF. -/
theorem incThenDecRestores : Obligations.IncThenDecRestores := by
  intro reg s
  refine ⟨_, _, exec_inc s reg, exec_dec _ reg, ?_, rfl⟩
  simp only [setFlags_reg, reg_setReg_self]
  exact BitVec.add_sub_cancel (s.reg reg) 1#16

/-- Settles O52: the first NEG writes neither `zero` nor, by way of `temp`, the result in `reg`, so that the second is
in the domain too and negates the negation. -/
theorem negTwiceRestores : Obligations.NegTwiceRestores := by
  intro reg temp zero s hreg hzero hzr hz
  have hdom : InDomain (.neg reg temp zero) s := inDomain_neg hreg hzero hzr hz
  refine ⟨_, _, exec_neg hdom, exec_neg (inDomain_neg hreg hzero hzr ?_), ?_⟩
  · simp [reg_setReg, hzero.symm, hzr, hz]
  · simp [reg_setReg, hreg.symm]

end Sys2Proof.Proofs

namespace Sys2Proof.Machine

/-!
SHL, SHR and SAR (45_shifts.md R170 to R174). The shifts and rotates share one domain and one ending, and where
`zero` holds the all-zero pattern the internal comparison of that ending is with zero; both are said once for the five
commands. What is a shift's own is the closed form of its moves at the effective count.
-/

/-! ### The shared domain and the shared ending -/

section ending

variable {i : Instr} {s : State} {reg zero temp : Reg} {m : Moved 16} {steps : Nat} {netOne ofAtOne : Bool}

/-- The domain of a command with the `unaryDistinct` row of R225 and a `zero` operand, operand by operand. -/
theorem inDomain_of_unaryDistinct (hrow : operandsDistinct i = unaryDistinct reg zero temp)
    (hop : zeroOperand i = some zero) (hreg : temp ≠ reg) (hzero : temp ≠ zero) (hzr : zero ≠ reg)
    (hz : s.reg zero = 0#16) : InDomain i s :=
  ⟨by simp [hrow, unaryDistinct, hreg, hzero, hzr], by simp [zeroOperandHolds, hop, hz]⟩

/-- The flags after the moves: the comparison with zero leaves CF and OF clear, so they are 0 unless overwritten
(R170 item 3, R182 item 3). -/
theorem moveFlags_subWords_zero {n : Nat} (v : BitVec n) (out : Bool) :
    moveFlags (subWords v 0#n).2 steps out netOne ofAtOne =
      { cf := decide (1 ≤ steps) && out, zf := decide (v = 0#n), sf := v.msb, of := netOne && ofAtOne } := by
  simp [moveFlags, subWords_eq_sub]

/-- A shift or rotate in its domain: the moved value to `reg` and to `temp`, and the flags of the moves. -/
theorem exec_of_moveEffect (hdom : InDomain i s) (hz : s.reg zero = 0#16)
    (heffect : commandEffect i s.reg s.flags = moveEffect s.reg reg zero temp m steps netOne ofAtOne) :
    exec i s = .next (((s.setReg reg m.1).setReg temp m.1).setFlags
      { cf := decide (1 ≤ steps) && m.2, zf := decide (m.1 = 0#16), sf := m.1.msb, of := netOne && ofAtOne }) := by
  refine exec_eq_next_iff.mpr ⟨hdom, ?_⟩
  rw [heffect, moveEffect, hz, moveFlags_subWords_zero, subWords_zero_value]
  rfl

/-- Two commands with the same domain checks and the same effect have the same outcome, refusals included. -/
theorem exec_congr {j : Instr} (hrow : operandsDistinct i = operandsDistinct j)
    (hop : zeroOperand i = zeroOperand j)
    (heffect : commandEffect i s.reg s.flags = commandEffect j s.reg s.flags) : exec i s = exec j s := by
  have hholds : zeroOperandHolds i s = zeroOperandHolds j s := by rw [zeroOperandHolds, zeroOperandHolds, hop]
  rw [exec_eq_guarded, exec_eq_guarded, guarded, guarded, hrow, hholds, heffect]

end ending

/-! ### The moves at the effective count -/

section moves

variable {n count : Nat} (v : BitVec n)

/-- A count of the width or more acts as the width (R170 item 1). -/
theorem shiftSteps_of_le (h : n ≤ count) : shiftSteps n count = n := Nat.min_eq_right h

/-- A count up to the width is that many moves (R170 item 1). -/
theorem shiftSteps_of_ge (h : count ≤ n) : shiftSteps n count = count := Nat.min_eq_left h

/-- A full turn more is the same net rotation (R182 item 1). -/
theorem rotateSteps_add_width : rotateSteps n (count + n) = rotateSteps n count := Nat.add_mod_right count n

/-- SHL at every count (R171). -/
theorem shlWord_eq (count : Nat) :
    shlWord v count = (v <<< min count n, decide (1 ≤ min count n) && v.getLsbD (n - min count n)) := by
  simp [shlWord, shiftSteps, moveSteps_shlMove]

/-- SHR at every count (R172). -/
theorem shrWord_eq (count : Nat) :
    shrWord v count = (v >>> min count n, decide (1 ≤ min count n) && v.getLsbD (min count n - 1)) :=
  moveSteps_shrMove v (min count n)

/-- SAR at every count (R173). -/
theorem sarWord_eq (count : Nat) :
    sarWord v count = (v.sshiftRight (min count n), decide (1 ≤ min count n) && v.getLsbD (min count n - 1)) :=
  moveSteps_sarMove v (min count n) (Nat.min_le_right count n)

/-- SAR keeps the sign at every count (R173). -/
theorem sarWord_msb (count : Nat) : (sarWord v count).1.msb = v.msb := by
  rw [sarWord_eq, BitVec.msb_sshiftRight]

/-- SAR's fill depends on the value's sign alone (R173). -/
theorem sarWord_of_msb_eq {v w : BitVec n} (h : w.msb = v.msb) (count : Nat) :
    sarWord w count = moveSteps (sarMove v.msb) (shiftSteps n count) w := by
  rw [sarWord, h]

/-- For a move that does not look at the bit that left before it, one more move within the width is the moves so far,
and then a shift by one from their value (R174). -/
theorem moveSteps_shiftSteps_succ {move : Moved n → Moved n} (hmove : ∀ m, move m = move (m.1, false))
    (h : count < n) :
    moveSteps move (shiftSteps n (count + 1)) v =
      moveSteps move (shiftSteps n 1) (moveSteps move (shiftSteps n count) v).1 := by
  rw [shiftSteps_of_ge h, shiftSteps_of_ge h.le, shiftSteps_of_ge (Nat.one_le_of_lt h), moveSteps_succ, hmove]
  rfl

end moves

end Sys2Proof.Machine

namespace Sys2Proof.Proofs

open Sys2Proof.Machine

/-- Settles O27, from the closed form of SHL's moves. -/
theorem shlCompletes : Obligations.ShlCompletes := by
  intro reg count zero temp s hreg hzero hzr hz
  have hdom : InDomain (.shl reg count zero temp) s := inDomain_of_unaryDistinct rfl rfl hreg hzero hzr hz
  rw [exec_of_moveEffect hdom hz rfl, shlWord_eq]
  simp [shiftSteps, signChangeOf, beq_eq_decide]

/-- Settles O28, from the closed form of SHR's moves. -/
theorem shrCompletes : Obligations.ShrCompletes := by
  intro reg count zero temp s hreg hzero hzr hz
  have hdom : InDomain (.shr reg count zero temp) s := inDomain_of_unaryDistinct rfl rfl hreg hzero hzr hz
  rw [exec_of_moveEffect hdom hz rfl, shrWord_eq]
  simp [shiftSteps]

/-- Settles O29, from the closed form of SAR's moves, which keep the sign. -/
theorem sarCompletes : Obligations.SarCompletes := by
  intro reg count zero temp s hreg hzero hzr hz
  have hdom : InDomain (.sar reg count zero temp) s := inDomain_of_unaryDistinct rfl rfl hreg hzero hzr hz
  rw [exec_of_moveEffect hdom hz rfl, sarWord_msb, sarWord_eq]
  simp [shiftSteps]

/-- Settles O54: the domain checks do not look at the count, and the effect only at the number of moves and at whether
the count, or for a rotate the net count, is 1. -/
theorem countsSaturateAndReduce : Obligations.CountsSaturateAndReduce := by
  intro reg count zero temp s
  refine ⟨fun hcount => ?_, exec_congr rfl rfl ?_, exec_congr rfl rfl ?_⟩
  · have hsteps : shiftSteps 16 count = shiftSteps 16 16 := shiftSteps_of_le hcount
    have hone : (count == 1) = (16 == 1) := beq_false_of_ne (by omega)
    refine ⟨exec_congr rfl rfl ?_, exec_congr rfl rfl ?_, exec_congr rfl rfl ?_⟩
    · simp only [commandEffect, shlWord, hsteps, hone]
    · simp only [commandEffect, shrWord, hsteps, hone]
    · simp only [commandEffect, sarWord, hsteps, hone]
  · simp only [commandEffect, rolWord, rotateSteps_add_width]
  · simp only [commandEffect, rorWord, rotateSteps_add_width]

/-- Settles O55: no move looks at the bit that left before it, and SAR's fill is the same sign from either value. -/
theorem shiftsCompose : Obligations.ShiftsCompose := by
  intro n v count h
  refine ⟨moveSteps_shiftSteps_succ v (fun _ => rfl) h, moveSteps_shiftSteps_succ v (fun _ => rfl) h, ?_⟩
  rw [sarWord_of_msb_eq (sarWord_msb v count)]
  exact moveSteps_shiftSteps_succ v (fun _ => rfl) h

end Sys2Proof.Proofs

namespace Sys2Proof.Machine

/-!
ROL and ROR (46_rotates.md R180 to R183). They share the domain and the ending of the shifts; what is their own is the
closed form of their moves at the net rotation, and that the two rotations by one count undo each other.
-/

/-! ### The rotations of a word -/

section words

variable {n : Nat} (v : BitVec n) (k : Nat)

/-- Rotating left and then right by the same count moves every bit back to its place. -/
theorem rotateRight_rotateLeft : (v.rotateLeft k).rotateRight k = v := by
  refine BitVec.eq_of_getLsbD_eq fun j hj => ?_
  have hk : k % n < n := Nat.mod_lt k (by omega)
  rw [BitVec.getLsbD_rotateRight, BitVec.getLsbD_rotateLeft, BitVec.getLsbD_rotateLeft]
  by_cases hlow : j < n - k % n
  · simp [hlow, show k % n + j < n by omega]
  · have hwrapped : j - (n - k % n) < k % n := by omega
    have hback : n - k % n + (j - (n - k % n)) = j := by omega
    simp [hlow, hj, hwrapped, hback]

/-- Rotating right and then left by the same count does so too: left rotation is injective on finitely many words, so
that every word is a left rotation, which the right rotation undoes. -/
theorem rotateLeft_rotateRight : (v.rotateRight k).rotateLeft k = v := by
  have hleft : Function.LeftInverse (BitVec.rotateRight · k) (BitVec.rotateLeft (w := n) · k) :=
    fun w => rotateRight_rotateLeft w k
  exact hleft.rightInverse_of_surjective (Finite.surjective_of_injective hleft.injective) v

@[simp] theorem zero_rotateLeft : (0#n).rotateLeft k = 0#n := by simp [BitVec.rotateLeft_def]

@[simp] theorem zero_rotateRight : (0#n).rotateRight k = 0#n := by simp [BitVec.rotateRight_def]

/-- Only the all-zero pattern rotates left to the all-zero pattern: rotating back, it comes from there. -/
theorem rotateLeft_eq_zero_iff : v.rotateLeft k = 0#n ↔ v = 0#n where
  mp h := by rw [← rotateRight_rotateLeft v k, h, zero_rotateRight]
  mpr h := by rw [h, zero_rotateLeft]

/-- Only the all-zero pattern rotates right to the all-zero pattern. -/
theorem rotateRight_eq_zero_iff : v.rotateRight k = 0#n ↔ v = 0#n where
  mp h := by rw [← rotateLeft_rotateRight v k, h, zero_rotateLeft]
  mpr h := by rw [h, zero_rotateRight]

end words

/-! ### The moves at the net rotation -/

section moves

variable {n : Nat} (v : BitVec n) (count : Nat)

/-- ROL at every count (R180, R182 item 1). -/
theorem rolWord_eq (hn : 0 < n) :
    rolWord v count =
      (v.rotateLeft (count % n), decide (1 ≤ count % n) && v.getLsbD (n - count % n)) :=
  moveSteps_rolMove v (count % n) (Nat.mod_lt count hn)

/-- ROR at every count (R181, R182 item 1). -/
theorem rorWord_eq (hn : 0 < n) :
    rorWord v count =
      (v.rotateRight (count % n), decide (1 ≤ count % n) && v.getLsbD (count % n - 1)) :=
  moveSteps_rorMove v (count % n) (Nat.mod_lt count hn)

/-- ROR's moves undo those of ROL (R183). -/
theorem rorWord_rolWord (hn : 0 < n) : (rorWord (rolWord v count).1 count).1 = v := by
  rw [rorWord_eq _ _ hn, rolWord_eq _ _ hn, rotateRight_rotateLeft]

/-- ROL's moves undo those of ROR (R183). -/
theorem rolWord_rorWord (hn : 0 < n) : (rolWord (rorWord v count).1 count).1 = v := by
  rw [rolWord_eq _ _ hn, rorWord_eq _ _ hn, rotateLeft_rotateRight]

end moves

/-- What a next shift or rotate on the same operands finds: the moved value in `reg`, and `zero` still all zero. -/
theorem exists_next_of_moveEffect {i : Instr} {s : State} {reg zero temp : Reg} {m : Moved 16} {steps : Nat}
    {netOne ofAtOne : Bool} (hdom : InDomain i s) (hreg : temp ≠ reg) (hzero : temp ≠ zero) (hzr : zero ≠ reg)
    (hz : s.reg zero = 0#16)
    (heffect : commandEffect i s.reg s.flags = moveEffect s.reg reg zero temp m steps netOne ofAtOne) :
    ∃ t : State, exec i s = .next t ∧ t.reg reg = m.1 ∧ t.reg zero = 0#16 := by
  refine ⟨_, exec_of_moveEffect hdom hz heffect, ?_, ?_⟩
  · simp [reg_setReg, hreg.symm]
  · simp [reg_setReg, hzero.symm, hzr, hz]

end Sys2Proof.Machine

namespace Sys2Proof.Proofs

open Sys2Proof.Machine

/-- Settles O30, from the closed form of ROL's moves; the rotated word is zero for a zero word alone. -/
theorem rolCompletes : Obligations.RolCompletes := by
  intro reg count zero temp s hreg hzero hzr hz
  have hdom : InDomain (.rol reg count zero temp) s := inDomain_of_unaryDistinct rfl rfl hreg hzero hzr hz
  rw [exec_of_moveEffect hdom hz rfl, rolWord_eq _ _ (by decide), rotateSteps]
  simp [signChangeOf, rotateLeft_eq_zero_iff, beq_eq_decide]

/-- Settles O31, from the closed form of ROR's moves; the rotated word is zero for a zero word alone. -/
theorem rorCompletes : Obligations.RorCompletes := by
  intro reg count zero temp s hreg hzero hzr hz
  have hdom : InDomain (.ror reg count zero temp) s := inDomain_of_unaryDistinct rfl rfl hreg hzero hzr hz
  rw [exec_of_moveEffect hdom hz rfl, rorWord_eq _ _ (by decide), rotateSteps]
  simp [topTwoOf, rotateRight_eq_zero_iff, BitVec.msb_eq_getLsbD_last, beq_eq_decide]

/-- Settles O53: the first rotation leaves the second one in the domain, and each undoes the moves of the other. -/
theorem rotateBackRestores : Obligations.RotateBackRestores := by
  intro reg count zero temp s hreg hzero hzr hz
  have rol {s : State} (hz : s.reg zero = 0#16) :=
    exists_next_of_moveEffect (i := .rol reg count zero temp)
      (inDomain_of_unaryDistinct rfl rfl hreg hzero hzr hz) hreg hzero hzr hz rfl
  have ror {s : State} (hz : s.reg zero = 0#16) :=
    exists_next_of_moveEffect (i := .ror reg count zero temp)
      (inDomain_of_unaryDistinct rfl rfl hreg hzero hzr hz) hreg hzero hzr hz rfl
  constructor
  · obtain ⟨t, hst, ht, htz⟩ := rol hz
    obtain ⟨u, htu, hu, -⟩ := ror htz
    exact ⟨t, u, hst, htu, by rw [hu, ht, rorWord_rolWord _ _ (by decide)]⟩
  · obtain ⟨t, hst, ht, htz⟩ := ror hz
    obtain ⟨u, htu, hu, -⟩ := rol htz
    exact ⟨t, u, hst, htu, by rw [hu, ht, rolWord_rorWord _ _ (by decide)]⟩

end Sys2Proof.Proofs

namespace Sys2Proof.Machine

/-!
CMP (47_cmp.md R190, R191). Its flags are those of the subtraction, read here as an ordering of the operands at every
width; the command itself puts the difference in a third register and refuses to put it in an operand.
-/

/-! ### The flags of a subtraction as an ordering, at every width -/

section words

variable {n : Nat} (a b : BitVec n)

theorem word_sub_eq_zero_iff : a - b = 0#n ↔ a = b := by
  rw [BitVec.sub_eq_iff_eq_add, BitVec.zero_add]

/-- The subtraction of R141 as a comparison: the difference is zero for equal operands alone. -/
theorem subWords_eq_compare :
    subWords a b = (a - b,
      { cf := decide (a.toNat < b.toNat)
        zf := decide (a = b)
        sf := (a - b).msb
        of := decide (a.msb ≠ b.msb ∧ (a - b).msb ≠ a.msb) }) := by
  simp only [subWords_eq_sub, word_sub_eq_zero_iff]

/-- The sign bit of a difference that does not overflow says whether the first operand is the smaller one. -/
theorem msb_sub_of_not_ssubOverflow (h : ¬a.ssubOverflow b = true) :
    (a - b).msb = decide (a.toInt < b.toInt) := by
  rw [BitVec.msb_eq_toInt, BitVec.toInt_sub_of_not_ssubOverflow h, decide_eq_decide, sub_neg]

/-- Operands of different signs are ordered by the sign of the first. -/
theorem toInt_lt_iff_msb_of_msb_ne (h : a.msb ≠ b.msb) : a.toInt < b.toInt ↔ a.msb = true := by
  rw [BitVec.msb_eq_toInt, BitVec.msb_eq_toInt, ne_eq, decide_eq_decide] at h
  rw [BitVec.msb_eq_toInt, decide_eq_true_iff]
  omega

/-- SF and OF differ exactly for a signed first operand below the second (R190). With equal signs nothing
overflows and SF is the sign of the integer difference; with different signs OF is set where SF is not the first
operand's sign, which therefore decides. -/
theorem subWords_sf_ne_of_iff : (subWords a b).2.sf ≠ (subWords a b).2.of ↔ a.toInt < b.toInt := by
  by_cases hsign : a.msb = b.msb
  · have hof : (subWords a b).2.of = false := by simp [subWords_eq_sub, hsign]
    have hsf : (subWords a b).2.sf = decide (a.toInt < b.toInt) := by
      rw [subWords_eq_sub]
      exact msb_sub_of_not_ssubOverflow a b (by rw [← subWords_of, hof]; decide)
    simp [hof, hsf]
  · rw [toInt_lt_iff_msb_of_msb_ne a b hsign, subWords_eq_sub]
    simp only [ne_eq, hsign, not_false_eq_true, true_and]
    cases a.msb <;> cases (a - b).msb <;> decide

/-- The internal comparison against zero (R191): nothing is unsigned below zero, and subtracting it keeps the sign. -/
theorem subWords_zero : subWords a 0#n = (a, { cf := false, zf := decide (a = 0#n), sf := a.msb, of := false }) := by
  have hborrow : ¬a.toNat < (0#n).toNat := Nat.not_lt_zero _
  have hoverflow : ¬(a.msb ≠ (0#n).msb ∧ a.msb ≠ a.msb) := fun ⟨_, hchanged⟩ => hchanged rfl
  rw [subWords_eq_sub, BitVec.sub_zero, decide_eq_false hborrow, decide_eq_false hoverflow]

end words

/-! ### CMP -/

section commands

variable {lhs rhs temp : Reg} {s : State}

/-- The row of CMP in the table of R225. -/
theorem operandsDistinct_cmp : operandsDistinct (.cmp lhs rhs temp) = true ↔ temp ≠ lhs ∧ temp ≠ rhs := by
  simp [operandsDistinct]

/-- CMP in its domain: the difference to `temp`, with the flags of the subtraction (R190). -/
theorem exec_cmp (hlhs : temp ≠ lhs) (hrhs : temp ≠ rhs) :
    exec (.cmp lhs rhs temp) s = .next ((s.setReg temp (subWords (s.reg lhs) (s.reg rhs)).1).setFlags
      (subWords (s.reg lhs) (s.reg rhs)).2) :=
  exec_eq_next_iff.mpr ⟨⟨operandsDistinct_cmp.mpr ⟨hlhs, hrhs⟩, rfl⟩, rfl⟩

/-- CMP refuses to write the difference over an operand (R225, D11). -/
theorem exec_cmp_of_alias (halias : temp = lhs ∨ temp = rhs) :
    exec (.cmp lhs rhs temp) s = .refused .operandAlias := by
  have hrow : operandsDistinct (.cmp lhs rhs temp) = false := by
    rw [Bool.eq_false_iff, ne_eq, operandsDistinct_cmp]
    exact fun ⟨hlhs, hrhs⟩ => halias.elim hlhs hrhs
  rw [exec_eq_guarded]
  exact guarded_eq_refused.mpr (.inl ⟨hrow, rfl⟩)

/-- A CMP that completes leaves the flags of the subtraction. -/
theorem flags_of_exec_cmp {t : State} (h : exec (.cmp lhs rhs temp) s = .next t) :
    t.flags = (subWords (s.reg lhs) (s.reg rhs)).2 := by
  obtain ⟨-, rfl⟩ := exec_eq_next_iff.mp h
  rfl

end commands

end Sys2Proof.Machine

namespace Sys2Proof.Proofs

open Sys2Proof.Machine

/-- Settles O20: in its domain CMP is the subtraction read as a comparison, written to `temp`; out of it the first
domain check refuses. -/
theorem cmpCompletes : Obligations.CmpCompletes := by
  intro lhs rhs temp s
  refine ⟨fun ⟨hlhs, hrhs⟩ => ?_, exec_cmp_of_alias⟩
  rw [exec_cmp hlhs hrhs, subWords_eq_compare]

/-- Settles O46, from the flags of the subtraction: ZF and CF state equality and the unsigned order, and SF with OF the
signed order. -/
theorem cmpFlagsOrderTheOperands : Obligations.CmpFlagsOrderTheOperands := by
  intro lhs rhs temp s t h
  rw [flags_of_exec_cmp h]
  refine ⟨?_, ?_, subWords_sf_ne_of_iff _ _⟩
  · rw [subWords_eq_compare, decide_eq_true_iff]
  · rw [subWords_eq_compare, decide_eq_true_iff]

/-- Settles O47. -/
theorem internalCompareRefreshesZeroAndSign : Obligations.InternalCompareRefreshesZeroAndSign := fun _ v =>
  subWords_zero v

end Sys2Proof.Proofs

namespace Sys2Proof.Machine

/-!
Reset and hazards (70_reset_and_hazards.md R220 to R228). The domain checks are the first thing every command does, so
its refusals are theirs alone; the table of distinct operands is tied to the three points it stands for, the third of
which keeps the `zero` operand out of the registers a command writes.
-/

/-! ### Refusals -/

/-- A command refuses for the reason of its domain checks, and for no other (R228). -/
theorem exec_eq_refused_iff {i : Instr} {s : State} {why : Refusal} :
    exec i s = .refused why ↔
      (operandsDistinct i = false ∧ why = .operandAlias) ∨
      (operandsDistinct i = true ∧ zeroOperandHolds i s = false ∧ why = .zeroOperandNotZero) := by
  rw [exec_eq_guarded, guarded_eq_refused]

/-! ### The discipline behind the table of distinct operands -/

/-- The three points of R225 on the written registers, the scratch operands each beside the other operands, and the
`zero` operand. -/
def Discipline (written : List Reg) (scratch : List (Reg × List Reg)) (zero? : Option Reg) : Prop :=
  written.Nodup ∧ (∀ p ∈ scratch, p.1 ∉ p.2) ∧ (∀ z : Reg, zero? = some z → z ∉ written)

/-- One written register, and neither scratch nor `zero` operand: nothing to keep apart. -/
theorem discipline_of_singleton (r : Reg) : Discipline [r] [] none :=
  ⟨List.nodup_singleton r, nofun, nofun⟩

/-- One scratch operand `temp`, listed beside `dst` and `zero` among its `others`: keeping it from them leaves of the
discipline only that `zero` is not `dst`. -/
theorem discipline_of_oneScratch_iff {dst temp zero : Reg} {others : List Reg} (hdst : dst ∈ others)
    (hzero : zero ∈ others) :
    Discipline [dst, temp] [(temp, others)] (some zero) ↔ temp ∉ others ∧ zero ≠ dst := by
  constructor
  · rintro ⟨-, hscratch, hnotWritten⟩
    exact ⟨hscratch _ (List.mem_singleton_self _), List.ne_of_not_mem_cons (hnotWritten zero rfl)⟩
  · rintro ⟨htemp, hzd⟩
    have hdt : dst ≠ temp := ne_of_mem_of_not_mem hdst htemp
    have hzt : zero ≠ temp := ne_of_mem_of_not_mem hzero htemp
    exact ⟨by simp [hdt], by simpa using htemp, by simp [hzd, hzt]⟩

/-- The row of NEG, the shifts and the rotates. -/
theorem unaryDistinct_iff_discipline (reg zero temp : Reg) :
    unaryDistinct reg zero temp = true ↔ Discipline [reg, temp] [(temp, [reg, zero])] (some zero) :=
  decide_eq_true_iff.trans (discipline_of_oneScratch_iff (by simp) (by simp)).symm

/-- The row of MUL. -/
theorem mulDistinct_iff_discipline (lhs rhs temp zero : Reg) :
    operandsDistinct (.mul lhs rhs temp zero) = true ↔
      Discipline [lhs, temp] [(temp, [lhs, rhs, zero])] (some zero) :=
  decide_eq_true_iff.trans (discipline_of_oneScratch_iff (by simp) (by simp)).symm

/-- The row of DIV: with two scratch operands, the discipline says the row's inequalities, some of them twice. -/
theorem divDistinct_iff_discipline (lhs rhs quotient temp zero : Reg) :
    operandsDistinct (.div lhs rhs quotient temp zero) = true ↔
      Discipline [lhs, quotient, temp]
        [(quotient, [lhs, rhs, temp, zero]), (temp, [lhs, rhs, quotient, zero])] (some zero) := by
  rw [operandsDistinct, decide_eq_true_iff, Discipline, List.forall_mem_cons, List.forall_mem_singleton]
  simp only [List.nodup_cons, List.mem_cons, Option.some.injEq, forall_eq']
  grind

/-- The row of CMP, which has no `zero` operand. -/
theorem cmpDistinct_iff_discipline (lhs rhs temp : Reg) :
    operandsDistinct (.cmp lhs rhs temp) = true ↔ Discipline [temp] [(temp, [lhs, rhs])] none := by
  simp [operandsDistinct_cmp, Discipline]

/-- The table of R225, row by row, is the discipline on each command's own operands. -/
theorem operandsDistinct_iff_discipline (i : Instr) :
    operandsDistinct i = true ↔ Discipline (writtenRegs i) (scratchPairs i) (zeroOperand i) := by
  cases i with
  | add | sub | inc | dec | mov | ldi => exact iff_of_true rfl (discipline_of_singleton _)
  | neg | shl | shr | sar | rol | ror => exact unaryDistinct_iff_discipline _ _ _
  | cmp => exact cmpDistinct_iff_discipline _ _ _
  | mul => exact mulDistinct_iff_discipline _ _ _ _
  | div => exact divDistinct_iff_discipline _ _ _ _ _

/-! ### The flags of DIV -/

/-- DIV sets CF and OF together on a divisor equal to its `zero` operand, and clears both on any other (R152, R153). -/
theorem divisionEffect_cf_and_of (x : Reg → Word) (lhs rhs quotient temp zero : Reg) :
    ((divisionEffect x lhs rhs quotient temp zero).flags.cf &&
      (divisionEffect x lhs rhs quotient temp zero).flags.of) = decide (x rhs = x zero) := by
  by_cases h : x rhs = x zero
  · simp [divisionEffect_of_eq h, divByZeroFlags, h]
  · simp [divisionEffect, wordsEqual_iff, h]

end Sys2Proof.Machine

namespace Sys2Proof.Proofs

open Sys2Proof.Machine

/-- Settles O34: the domain checks decide both when a command completes and how it is refused. -/
theorem refusalsAreExactlyTheListed : Obligations.RefusalsAreExactlyTheListed := fun _ _ =>
  ⟨fun hdom => ⟨_, exec_eq_next_iff.mpr ⟨hdom, rfl⟩⟩,
    fun halias => exec_eq_refused_iff.mpr (.inl ⟨halias, rfl⟩),
    fun hdistinct hzero => exec_eq_refused_iff.mpr (.inr ⟨hdistinct, hzero, rfl⟩)⟩

/-- Settles O35, row by row of the table. -/
theorem distinctnessTableIsTheDiscipline : Obligations.DistinctnessTableIsTheDiscipline :=
  operandsDistinct_iff_discipline

/-- Settles O37: the `zero` operand holds zero when the command starts, and the third point of the discipline keeps it
out of the registers the command writes. -/
theorem zeroOperandIsKept : Obligations.ZeroOperandIsKept := by
  intro i s t z h hop
  obtain ⟨⟨hdistinct, hholds⟩, -⟩ := exec_eq_next_iff.mp h
  obtain ⟨-, -, hnotWritten⟩ := (operandsDistinct_iff_discipline i).mp hdistinct
  obtain ⟨hframe, -⟩ := onlyWrittenRegistersChange i s t h
  rw [hframe z (hnotWritten z hop), reg_of_zeroOperandHolds hholds hop]

/-- Settles O44: a DIV that completes has found zero in its `zero` operand, to which it compares the divisor. -/
theorem divisionByZeroIsCarryAndOverflow : Obligations.DivisionByZeroIsCarryAndOverflow := by
  intro lhs rhs quotient temp zero s t h
  obtain ⟨⟨-, hholds⟩, rfl⟩ := exec_eq_next_iff.mp h
  have hzero : s.reg zero = 0#16 := reg_of_zeroOperandHolds hholds rfl
  rw [← hzero]
  exact divisionEffect_cf_and_of s.reg lhs rhs quotient temp zero

/-- Settles O8: a step on the reset input goes on from the reset state, with the inputs still to come. -/
theorem resetInputClearsTheBlock : Obligations.ResetInputClearsTheBlock := fun _ _ hport =>
  ⟨_, step_of_reset hport, reset_reg, reset_flags, rfl⟩

end Sys2Proof.Proofs
